-- ==== Sys2Proof/Word.lean ====
section
/-! DEFINITION. The widths the spec gives its values (00_scope.md R9; 30_encoding.md R71, R78). -/

namespace Sys2Proof

/-- An 8-bit register value or data byte (R9, R53). -/
abbrev Byte := BitVec 8

/-- A 16-bit bus address or DMA source (R50, R28). -/
abbrev Addr := BitVec 16

/-- A 32-bit command word (R71). -/
abbrev Word := BitVec 32

/-- The ADVANCE cycle field, 28 bits (R74, decision D21). -/
abbrev Cycles := BitVec 28

/-- The five request flags or a mask of them (R31, R76). -/
abbrev Flags := BitVec 5

end Sys2Proof
end

