-- ==== Sys2Proof/Config.lean ====
section
/-! DEFINITION. The configuration of 00_scope.md R7, its constraints (R7, R8), and the free
values the spec leaves open: the memory oracle's answers (20_memory.md R55), the DMA register's read value
(42_dma.md R146) and OAM's first contents (10_state.md R35). -/

namespace Sys2Proof

/-- The seven bus-visible registers (10_state.md R38 to R44). -/
inductive BusReg where
  | joyp | div | tima | tma | tac | ifReg | dma
deriving DecidableEq, Repr

/-- All seven, in the order of R79's table. -/
def BusReg.all : List BusReg := [.joyp, .div, .tima, .tma, .tac, .ifReg, .dma]

/-- The five request flags (R31, R43). -/
inductive Flag where
  | vblank | stat | timer | serial | joypad
deriving DecidableEq, Repr

/-- The implementation parameters of R7 that are not fixed by the source. -/
structure Config where
  /-- `DIV_INTERVAL`, cycle units per divider increment. -/
  divInterval : Nat
  /-- `TIMER_TABLE[0..3]`, cycle units per timer tick for each select value. -/
  timerTable : Vector Nat 4
  addrJoyp : Addr
  addrDiv : Addr
  addrTima : Addr
  addrTma : Addr
  addrTac : Addr
  addrIf : Addr
  addrDma : Addr
  /-- `TAC_HIGH`, read in TAC bits 7:3. -/
  tacHigh : BitVec 5
  /-- `IF_HIGH`, read in IF bits 7:5. -/
  ifHigh : BitVec 3
  /-- `JOYP_HIGH`, read in JOYP bits 7:4. -/
  joypHigh : BitVec 4
  vecVblank : Nat
  vecStat : Nat
  vecTimer : Nat
  vecSerial : Nat
  vecJoypad : Nat
deriving DecidableEq, Repr

/-- The constraints of R7: positive intervals, seven distinct addresses, five distinct flag positions below 5, and "one
table entry equals `4 * DIV_INTERVAL`" (log entry 13). -/
def Config.valid (c : Config) : Bool :=
  decide (0 < c.divInterval) &&
  decide (∀ i : Fin 4, 0 < c.timerTable.get i) &&
  decide ([c.addrJoyp, c.addrDiv, c.addrTima, c.addrTma, c.addrTac, c.addrIf, c.addrDma].Nodup) &&
  decide ([c.vecVblank, c.vecStat, c.vecTimer, c.vecSerial, c.vecJoypad].Nodup) &&
  decide (∀ v ∈ [c.vecVblank, c.vecStat, c.vecTimer, c.vecSerial, c.vecJoypad], v < 5) &&
  decide (∃ i : Fin 4, c.timerTable.get i = 4 * c.divInterval)

/-- A configuration together with the proof that it meets R7's constraints. "A configuration that breaks the
constraints of rule R7 is refused: the model has no machine for it" (R8): no value of this type is one. -/
structure ValidConfig extends Config where
  ok : toConfig.valid = true
deriving DecidableEq, Repr

/-- `DMA_LENGTH`, bytes per OAM DMA transfer, fixed by the source (R7). -/
def dmaLength : Nat := 160

/-- FREE VALUE (log entry 7). The byte the memory oracle answers to the `n`-th raw read of a session (counted from
0), made at address `a`: "CORE assumes nothing of it: the model takes any byte" (R55, decision D16). -/
opaque Config.rawByte : Nat → Addr → Byte

/-- FREE VALUE (log entry 8). The byte a read of the write-only DMA register yields when it is the `n`-th bus read
of a session: "any 8-bit value, drawn fresh at each read" (R146, decision D13). -/
opaque Config.dmaRegisterByte : Nat → Byte

/-- FREE VALUE (log entry 9). The byte OAM holds at an offset where CORE has stored nothing else: "CORE does not
initialise it, so a model starts from any 160 bytes" (R35). -/
opaque Config.oamByte : Nat → Byte

end Sys2Proof
end

