-- ==== Sys2Proof/Machine/Parameters.lean ====
section
/-! DEFINITION. How the parameters of 00_scope.md R7 are looked up, and their named default values
(92_eei_decisions.md D1, D3, D4, D6, D7). -/

namespace Sys2Proof

/-- The bus address of a register (`ADDR_*`, R7). -/
def Config.addrOf (c : Config) : BusReg → Addr
  | .joyp => c.addrJoyp
  | .div => c.addrDiv
  | .tima => c.addrTima
  | .tma => c.addrTma
  | .tac => c.addrTac
  | .ifReg => c.addrIf
  | .dma => c.addrDma

/-- The bit position of a request flag (`VEC_BIT`, R7). -/
def Config.vecBit (c : Config) : Flag → Nat
  | .vblank => c.vecVblank
  | .stat => c.vecStat
  | .timer => c.vecTimer
  | .serial => c.vecSerial
  | .joypad => c.vecJoypad

/-- `TIMER_TABLE[sel]`: the timer interval as a function of the select (R27). -/
def Config.timerInterval (c : Config) (sel : BitVec 2) : Nat := c.timerTable.get sel.toFin

/-- `max(TIMER_TABLE)` (R24, R47). -/
def Config.maxTimerInterval (c : Config) : Nat :=
  max (max (c.timerTable.get 0) (c.timerTable.get 1)) (max (c.timerTable.get 2) (c.timerTable.get 3))

/-- The register a bus address names, if any (30_encoding.md R79). -/
def Config.registerAt (c : Config) (a : Addr) : Option BusReg :=
  BusReg.all.find? fun r => c.addrOf r == a

/-- The named default configuration of R7 (decisions D1, D3, D4, D6, D7). -/
def ValidConfig.standard : ValidConfig where
  divInterval := 64
  timerTable := #v[256, 4, 16, 64]
  addrJoyp := 0xFF00
  addrDiv := 0xFF04
  addrTima := 0xFF05
  addrTma := 0xFF06
  addrTac := 0xFF07
  addrIf := 0xFF0F
  addrDma := 0xFF46
  tacHigh := 0b11111
  ifHigh := 0b111
  joypHigh := 0b1111
  vecVblank := 0
  vecStat := 1
  vecTimer := 2
  vecSerial := 3
  vecJoypad := 4
  ok := by decide

end Sys2Proof
end

