-- ==== Sys2Proof/Assembly.lean ====
section
/-! DEFINITION. The assembly language of 30_encoding.md R82 and R83, as syntax trees. Immediates are numbers of any
size here; Sys2Proof/WellFormed.lean says which of them fit their fields. -/

namespace Sys2Proof

/-- "A register operand is a name from rule R79 or a raw address `$hhhh`" (R82). -/
inductive RegOperand where
  | name (r : BusReg)
  | raw (a : Addr)
deriving DecidableEq, Repr

/-- The command lines of R82. -/
inductive AsmCommand where
  | rd (r : RegOperand)
  | wr (r : RegOperand) (imm : Nat)
  | adv (n : Nat)
  | poll (keys : Nat)
  | irqReq (mask : Nat)
  | irqClr (mask : Nat)
  | dmaStart (addr : Nat)
deriving DecidableEq, Repr

/-- One assembly line: a command, or a pseudo-instruction of R83. -/
inductive AsmLine where
  | command (k : AsmCommand)
  | divReset
  | timerStart (sel : Nat)
  | timerStop
  | dmaPage (p : Nat)
  | joypDirs
  | joypBtns
  | joypBoth
  | joypNone
  | irqAck (f : Nat)
  | advLong (n : Nat)
deriving DecidableEq, Repr

end Sys2Proof
end

