-- ==== Sys2Proof/Syntax.lean ====
section
/-! DEFINITION. The nineteen commands of CORE (30_encoding.md R70), one constructor per row of
spec/opcode_table.json. An operand has exactly the width of its field (R72 to R78). -/

namespace Sys2Proof

/-- One CORE command (R70). A bus command carries no address: the address is its name (R79). -/
inductive Instr where
  | rdJoyp
  | wrJoyp (data : Byte)
  | rdDiv
  | wrDiv (data : Byte)
  | rdTima
  | wrTima (data : Byte)
  | rdTma
  | wrTma (data : Byte)
  | rdTac
  | wrTac (data : Byte)
  | rdIf
  | wrIf (data : Byte)
  | rdDma
  | wrDma (data : Byte)
  | advance (cycles : Cycles)
  | poll (keys : Byte)
  | irqReq (mask : Flags)
  | irqClr (mask : Flags)
  | dmaStart (src : Addr)
deriving DecidableEq, Repr

end Sys2Proof
end

