-- ==== Sys2Proof/WellFormed.lean ====
section
/-! DEFINITION. What is well formed: instructions, command words (30_encoding.md R80) and assembly lines (R82, R83). -/

namespace Sys2Proof

/-- Every operand value of every command is legal: a field is as wide as its type, and the spec restricts none
further (R76 zero masks, R127 every TAC value, R145 every page, R52 every source, R74 every cycle count). -/
def Instr.wellFormed : Instr → Bool
  | .rdJoyp | .rdDiv | .rdTima | .rdTma | .rdTac | .rdIf | .rdDma => true
  | .wrJoyp _ | .wrDiv _ | .wrTima _ | .wrTma _ | .wrTac _ | .wrIf _ | .wrDma _ => true
  | .advance _ | .poll _ | .irqReq _ | .irqClr _ | .dmaStart _ => true

/-- R80 (a): "CLS is 0x0 or 0x8..0xF". -/
def reservedClass (w : Word) : Bool :=
  let cls := (w.extractLsb' 28 4).toNat
  cls == 0 || decide (8 ≤ cls)

/-- R80 (b): "any RSV bit of its format is 1"; the RSV fields are those of R72, R73, R75, R76 and R77. -/
def reservedBitSet (w : Word) : Bool :=
  match (w.extractLsb' 28 4).toNat with
  | 1 => w.extractLsb' 16 12 != 0
  | 2 => w.extractLsb' 24 4 != 0
  | 4 => w.extractLsb' 8 20 != 0
  | 5 => w.extractLsb' 5 23 != 0
  | 6 => w.extractLsb' 5 23 != 0
  | 7 => w.extractLsb' 16 12 != 0
  | _ => false

/-- R80 (c): "it is BR or BW with an ADDR that is none of the seven register addresses". -/
def namesNoRegister (c : Config) (w : Word) : Bool :=
  let cls := (w.extractLsb' 28 4).toNat
  (cls == 1 || cls == 2) &&
    !([c.addrJoyp, c.addrDiv, c.addrTima, c.addrTma, c.addrTac, c.addrIf, c.addrDma].contains
        (w.extractLsb' 0 16))

/-- A word that R80 does not refuse. -/
def legalWord (c : Config) (w : Word) : Bool :=
  !reservedClass w && !reservedBitSet w && !namesNoRegister c w

/-- The ranges R82 gives the immediates of a command line. -/
def AsmCommand.wellFormed : AsmCommand → Bool
  | .rd _ => true
  | .wr _ imm => decide (imm < 2 ^ 8)
  | .adv n => decide (n < 2 ^ 28)
  | .poll keys => decide (keys < 2 ^ 8)
  | .irqReq mask => decide (mask < 2 ^ 5)
  | .irqClr mask => decide (mask < 2 ^ 5)
  | .dmaStart addr => decide (addr < 2 ^ 16)

/-- The ranges R83 gives the operands of a pseudo-instruction. -/
def AsmLine.wellFormed : AsmLine → Bool
  | .command k => k.wellFormed
  | .divReset => true
  | .timerStart sel => decide (sel < 4)
  | .timerStop => true
  | .dmaPage p => decide (p < 2 ^ 8)
  | .joypDirs | .joypBtns | .joypBoth | .joypNone => true
  | .irqAck f => decide (f < 2 ^ 5)
  | .advLong n => decide (2 ^ 28 ≤ n)

end Sys2Proof
end

