-- ==== Sys2Proof/Decode.lean ====
section
/-! DEFINITION. The decoder and the encoder of 30_encoding.md. The decoder is total on all 2^32 words and refuses a
word by the reason R80 gives; the encoder is written from the same format tables (R72 to R77). -/

namespace Sys2Proof

/-- Why R80 refuses a word. -/
inductive DecodeRefusal where
  /-- R80 (a). -/
  | reservedClass
  /-- R80 (b). -/
  | reservedBits
  /-- R80 (c). -/
  | noRegister
deriving DecidableEq, Repr

/-- `CLS = w[31:28]` (R71). -/
def clsField (w : Word) : BitVec 4 := w.extractLsb' 28 4

/-- `ADDR = w[15:0]` (R72, R73, R78). -/
def addrField (w : Word) : Addr := w.extractLsb' 0 16

/-- `DATA = w[23:16]` (R73, R78). -/
def dataField (w : Word) : Byte := w.extractLsb' 16 8

/-- `CYCLES = w[27:0]` (R74, R78). -/
def cyclesField (w : Word) : Cycles := w.extractLsb' 0 28

/-- `KEYS = w[7:0]` (R75, R78). -/
def keysField (w : Word) : Byte := w.extractLsb' 0 8

/-- `MASK = w[4:0]` (R76, R78). -/
def maskField (w : Word) : Flags := w.extractLsb' 0 5

/-- `SRC = w[15:0]` (R77, R78). -/
def srcField (w : Word) : Addr := w.extractLsb' 0 16

/-- The RD command of a register (R79, column BR). -/
def readOf : BusReg → Instr
  | .joyp => .rdJoyp
  | .div => .rdDiv
  | .tima => .rdTima
  | .tma => .rdTma
  | .tac => .rdTac
  | .ifReg => .rdIf
  | .dma => .rdDma

/-- The WR command of a register (R79, column BW). -/
def writeOf (data : Byte) : BusReg → Instr
  | .joyp => .wrJoyp data
  | .div => .wrDiv data
  | .tima => .wrTima data
  | .tma => .wrTma data
  | .tac => .wrTac data
  | .ifReg => .wrIf data
  | .dma => .wrDma data

/-- Format BR (R72): RSV is bits 27:16. -/
def decodeRead (c : Config) (w : Word) : Except DecodeRefusal Instr :=
  if w.extractLsb' 16 12 = 0 then
    match c.registerAt (addrField w) with
    | some r => .ok (readOf r)
    | none => .error .noRegister
  else .error .reservedBits

/-- Format BW (R73): RSV is bits 27:24. -/
def decodeWrite (c : Config) (w : Word) : Except DecodeRefusal Instr :=
  if w.extractLsb' 24 4 = 0 then
    match c.registerAt (addrField w) with
    | some r => .ok (writeOf (dataField w) r)
    | none => .error .noRegister
  else .error .reservedBits

/-- A format whose RSV field must be zero and whose operand is always legal (R75 to R77). -/
def decodePlain {n : Nat} (rsv : BitVec n) (i : Instr) : Except DecodeRefusal Instr :=
  if rsv = 0 then .ok i else .error .reservedBits

/-- The decoder (R71 to R80), under a configuration's addresses (R79). -/
def decode (c : Config) (w : Word) : Except DecodeRefusal Instr :=
  if clsField w = 0x1 then decodeRead c w
  else if clsField w = 0x2 then decodeWrite c w
  else if clsField w = 0x3 then .ok (.advance (cyclesField w))
  else if clsField w = 0x4 then decodePlain (w.extractLsb' 8 20) (.poll (keysField w))
  else if clsField w = 0x5 then decodePlain (w.extractLsb' 5 23) (.irqReq (maskField w))
  else if clsField w = 0x6 then decodePlain (w.extractLsb' 5 23) (.irqClr (maskField w))
  else if clsField w = 0x7 then decodePlain (w.extractLsb' 16 12) (.dmaStart (srcField w))
  else .error .reservedClass

/-- The decoder's answer on a word of spec/opcode_table.json, under the table's (the default) addresses. A command
is one 32-bit word with no serialisation (R81), so the bits are the word: bits from `nbits` up are zero. -/
def decodeTableWord (nbits w : Nat) : Option Instr :=
  match decode ValidConfig.standard.toConfig (BitVec.ofNat 32 (w % 2 ^ nbits)) with
  | .ok i => some i
  | .error _ => none

/-- A BR word (R72). -/
def encodeRead (a : Addr) : Word := (0x1#4 ++ 0#12 ++ a : BitVec (4 + 12 + 16))

/-- A BW word (R73). -/
def encodeWrite (a : Addr) (data : Byte) : Word := (0x2#4 ++ 0#4 ++ data ++ a : BitVec (4 + 4 + 8 + 16))

/-- The encoder: the command word of an instruction, from the format tables R72 to R77. -/
def encode (c : Config) : Instr → Word
  | .rdJoyp => encodeRead (c.addrOf .joyp)
  | .wrJoyp d => encodeWrite (c.addrOf .joyp) d
  | .rdDiv => encodeRead (c.addrOf .div)
  | .wrDiv d => encodeWrite (c.addrOf .div) d
  | .rdTima => encodeRead (c.addrOf .tima)
  | .wrTima d => encodeWrite (c.addrOf .tima) d
  | .rdTma => encodeRead (c.addrOf .tma)
  | .wrTma d => encodeWrite (c.addrOf .tma) d
  | .rdTac => encodeRead (c.addrOf .tac)
  | .wrTac d => encodeWrite (c.addrOf .tac) d
  | .rdIf => encodeRead (c.addrOf .ifReg)
  | .wrIf d => encodeWrite (c.addrOf .ifReg) d
  | .rdDma => encodeRead (c.addrOf .dma)
  | .wrDma d => encodeWrite (c.addrOf .dma) d
  | .advance n => (0x3#4 ++ n : BitVec (4 + 28))
  | .poll k => (0x4#4 ++ 0#20 ++ k : BitVec (4 + 20 + 8))
  | .irqReq m => (0x5#4 ++ 0#23 ++ m : BitVec (4 + 23 + 5))
  | .irqClr m => (0x6#4 ++ 0#23 ++ m : BitVec (4 + 23 + 5))
  | .dmaStart a => (0x7#4 ++ 0#12 ++ a : BitVec (4 + 12 + 16))

end Sys2Proof
end

