-- ==== Sys2Proof/Machine/State.lean ====
section
/-! DEFINITION. The architectural state of CORE (10_state.md), grouped as the source groups it (ClockState, DmaState,
InterruptState, InputState), the reasons a step can stop (60_exceptions.md R200), and the reset state (R230). -/

namespace Sys2Proof.Machine

/-- The fault reasons of R200, each with its recorded value. -/
inductive Fault where
  /-- Code 1: a half of ADVANCE was called with this negative budget (41_clock.md R111, 42_dma.md R141). Raised by
  `clockAdvance` and `dmaAdvance`. No command word encodes it (30_encoding.md R78). Safe: the spec names this stop. -/
  | negativeCycles (c : Int)
  /-- Code 2: `dma_count` had this value, 160 or more, at a DMA iteration (42_dma.md R141). Raised by `dmaLoop`. Not
  reachable from a well-formed state (10_state.md R47). Safe: the spec names this stop. -/
  | dmaCountRange (count : Nat)
deriving DecidableEq, Repr

/-- Why the model has no meaning for an instruction. -/
inductive Refusal where
  /-- An arm of `exec` that has no meaning yet. No arm of this model raises it. Safe: nothing can be proved of it. -/
  | notModelled (mnemonic : String)
deriving DecidableEq, Repr

/-- The 160 bytes of OAM (R35), as the (offset, byte) pairs whose byte is not `Config.oamByte`; an offset not listed
holds that free byte. Offsets rise strictly (log entry 9). -/
abbrev Memory := List Host.Cell

/-- ClockState (10_state.md R21 to R27). -/
structure ClockState where
  /-- `divider_counter`, the signed countdown of the divider (R21). -/
  dividerCounter : Int
  /-- `divider_register`, DIV (R22, R39). -/
  dividerRegister : Byte
  /-- `timer_register`, TIMA (R23, R40). -/
  timerRegister : Byte
  /-- `timer_counter`, the signed countdown of the timer (R24). -/
  timerCounter : Int
  /-- `timer_modulo`, TMA (R25, R41). -/
  timerModulo : Byte
  /-- `timer_enabled`, TAC bit 2 (R26, R42). -/
  timerEnabled : Bool
  /-- `timer_select`, TAC bits 1:0 (R27, R42). -/
  timerSelect : BitVec 2
deriving DecidableEq, Repr

/-- DmaState (10_state.md R28 to R30). -/
structure DmaState where
  /-- `dma_source` (R28). -/
  source : Addr
  /-- `dma_count`, never clamped (R29). -/
  count : Nat
  /-- `dma_busy` (R30). -/
  busy : Bool
deriving DecidableEq, Repr

/-- InputState (10_state.md R32 to R34). -/
structure InputState where
  /-- `buttons_current`; 1 = pressed (R32). -/
  current : Byte
  /-- `buttons_previous` (R33). -/
  previous : Byte
  /-- `joyp_select`: bit 0 the direction line, bit 1 the button line, 0 = selected (R34). -/
  select : BitVec 2
deriving DecidableEq, Repr

/-- What has crossed to the host so far, each list oldest first (60_exceptions.md R215; log entry 10). -/
structure Record where
  /-- The bus-read results (40_advance.md R100). -/
  busReads : List Byte
  /-- The raw reads of the DMA engine: address, and the byte the oracle answered (20_memory.md R55). -/
  rawReads : List Host.Cell
  /-- The OAM writes of the DMA engine: offset and byte (20_memory.md R56). -/
  oamWrites : List Host.Cell
deriving DecidableEq, Repr

/-- The state of CORE, with the parameters of its step (10_state.md R37) and the record of its outputs. -/
structure State where
  /-- The configuration (00_scope.md R7); a parameter of the step, which no step writes (log entry 3). -/
  cfg : ValidConfig
  /-- The command words the host has still to present, next first; a parameter of the step (log entry 1). -/
  commands : List Word
  clock : ClockState
  dma : DmaState
  /-- `request_flags` (R31, R43). -/
  requestFlags : Flags
  input : InputState
  /-- `oam`, 160 bytes at offsets 0..159 (R35). -/
  oam : Memory
  /-- `fault` (R36). -/
  fault : Option Fault
  /-- `refused` (R36). -/
  refused : Bool
  record : Record
deriving DecidableEq, Repr

/-- The reset state of 70_reset_and_hazards.md R230 under a configuration, with nothing presented or recorded. -/
def State.resetWith (c : ValidConfig) : State where
  cfg := c
  commands := []
  clock :=
    { dividerCounter := c.divInterval
      dividerRegister := 0x00
      timerRegister := 0x00
      timerCounter := c.timerInterval 0
      timerModulo := 0x00
      timerEnabled := false
      timerSelect := 0b00 }
  dma := { source := 0x0000, count := 0, busy := false }
  requestFlags := 0b00000
  input := { current := 0x00, previous := 0x00, select := 0b11 }
  oam := []
  fault := none
  refused := false
  record := { busReads := [], rawReads := [], oamWrites := [] }

/-- The reset state under the named default configuration (R230, R7). -/
def State.reset : State := State.resetWith ValidConfig.standard

end Sys2Proof.Machine
end

