-- ==== Sys2Proof/Machine/Ops.lean ====
section
/-! DEFINITION. The named operations over state: one update per part of State, OAM storage, the host interface
(commands in; bus-read results, raw reads and OAM writes out), raising a fault, the refused mark, and the
remainder-preserving countdown that the divider and the timer share. CORE takes no exception and returns from none
(60_exceptions.md R202, R204, R206); `State.raise` is what it does instead on a fatal condition. -/

namespace Sys2Proof.Machine

/-! Updates: each replaces one part of State and leaves the rest. -/

def State.setCommands (s : State) (ws : List Word) : State := { s with commands := ws }
def State.setClock (s : State) (k : ClockState) : State := { s with clock := k }
def State.setDma (s : State) (d : DmaState) : State := { s with dma := d }
def State.setFlags (s : State) (f : Flags) : State := { s with requestFlags := f }
def State.setInput (s : State) (i : InputState) : State := { s with input := i }
def State.setOam (s : State) (m : Memory) : State := { s with oam := m }
def State.setRecord (s : State) (r : Record) : State := { s with record := r }

/-- `raise Fault(reason)`: "A fault sets `S.fault <- reason` and stops the model" (R10, R200). The stop is in the
step: a faulted state takes no further one (40_advance.md R100). -/
def State.raise (s : State) (r : Fault) : State := { s with fault := some r }

/-- `refuse(reason)`: "sets `S.refused <- true` and changes nothing else" (R10, R201). -/
def State.refuse (s : State) : State := { s with refused := true }

/-! OAM storage (20_memory.md R50, R56; 10_state.md R35): 160 bytes, held as a canonical list of (offset, byte) cells. -/

/-- The byte listed at an offset, if any. -/
def Memory.listed : Memory → Nat → Option Byte
  | [], _ => none
  | (a, v) :: m, off => if a = off then some v else Memory.listed m off

/-- The byte OAM holds at an offset: the one listed, or else the free byte `Config.oamByte` that stands there (R35);
`none` at 160 and above, where OAM has no byte (R50). -/
def Memory.read (m : Memory) (off : Nat) : Option Byte :=
  if off < dmaLength then some ((m.listed off).getD (Config.oamByte off)) else none

/-- The cells with this one put in its place. -/
def Memory.insert (off : Nat) (v : Byte) : Memory → Memory
  | [] => [(off, v)]
  | (a, b) :: m => if off < a then (off, v) :: (a, b) :: m else (a, b) :: Memory.insert off v m

/-- `oam[off] <- v` (R56). Writing the byte an unlisted offset holds lists nothing. -/
def Memory.write (m : Memory) (off : Nat) (v : Byte) : Memory :=
  let others := m.filter fun c => c.1 != off
  if v = Config.oamByte off then others else Memory.insert off v others

/-- Every cell lies at or above `lo` and below the OAM size, the offsets rise strictly, and no cell holds the byte an
unlisted offset holds. -/
def Memory.wfFrom : Nat → Memory → Bool
  | _, [] => true
  | lo, (a, v) :: m =>
    decide (lo ≤ a) && decide (a < dmaLength) && Memory.wfFrom (a + 1) m && decide (v ≠ Config.oamByte a)

/-- The canonical form of OAM storage. -/
def Memory.wf (m : Memory) : Bool := Memory.wfFrom 0 m

/-! The host interface (60_exceptions.md R214). -/

/-- The next command word the host presents, and the state with it taken; none when the host presents nothing. -/
def takeCommand (s : State) : Option (Word × State) :=
  match s.commands with
  | [] => none
  | w :: ws => some (w, s.setCommands ws)

/-- `return v`: "A bus read also yields its 8-bit result to the host" (40_advance.md R100). -/
def State.yield (s : State) (v : Byte) : State :=
  s.setRecord { s.record with busReads := s.record.busReads ++ [v] }

/-- What `MemRead(addr, 1)` answers in a state: the oracle's byte for the next raw read of the session (R55). -/
def rawAnswer (s : State) (addr : Addr) : Byte := Config.rawByte s.record.rawReads.length addr

/-- `v <- MemRead(addr, 1)` followed by `MemWrite(OAM, off, 1, v)` (42_dma.md R141; 20_memory.md R55, R56). -/
def copyByte (s : State) (addr : Addr) (off : Nat) : State :=
  let v := rawAnswer s addr
  (s.setOam (Memory.write s.oam off v)).setRecord
    { s.record with
      rawReads := s.record.rawReads ++ [(addr.toNat, v)]
      oamWrites := s.record.oamWrites ++ [(off, v)] }

/-! The remainder-preserving countdown (00_scope.md R13; 41_clock.md R112, R113). -/

/-- `while counter <= 0: counter <- counter + interval; trigger`, for at most `fuel` iterations. -/
def countdownLoop (interval : Nat) (trigger : State → State) : Nat → Int → State → Int × State
  | 0, d, s => (d, s)
  | fuel + 1, d, s =>
    if d ≤ 0 then countdownLoop interval trigger fuel (d + interval) (trigger s) else (d, s)

/-- The loop with enough fuel: an interval is at least 1 (R8), so from `d <= 0` it ends within `1 - d` iterations
(log entry 11). -/
def countdown (interval : Nat) (trigger : State → State) (d : Int) (s : State) : Int × State :=
  countdownLoop interval trigger (1 - d).toNat d s

end Sys2Proof.Machine
end

