-- ==== Sys2Proof/Machine/Flags.lean ====
section
/-! DEFINITION. The request flags, the only flags CORE has (10_state.md R45): their masks, and the request and clear
operations of 43_interrupts.md. -/

namespace Sys2Proof.Machine

/-- `1 << VEC_BIT[flag]` (R114, R180). -/
def flagMask (c : Config) (f : Flag) : Flags := 1#5 <<< c.vecBit f

/-- `request(mask)`: OR into `request_flags` (R160). -/
def request (mask : Flags) (s : State) : State := s.setFlags (s.requestFlags ||| mask)

/-- `clear(mask)`: AND-NOT out of `request_flags` (R161). -/
def clear (mask : Flags) (s : State) : State := s.setFlags (s.requestFlags &&& ~~~mask)

/-- A flag is pending while its bit is 1 (60_exceptions.md R203). -/
def pending (s : State) (f : Flag) : Bool := s.requestFlags.getLsbD (s.cfg.vecBit f)

end Sys2Proof.Machine
end

