-- ==== Sys2Proof/Machine/Operands.lean ====
section
/-! DEFINITION. What the data byte of a bus write means to each register, and what a bus read of each register
returns (10_state.md R38 to R44). -/

namespace Sys2Proof.Machine

/-- `DATA : 0x00`: a DMA page as a source address, `DATA * 256` (20_memory.md R51, 42_dma.md R145). -/
def pageSource (data : Byte) : Addr := (data ++ 0x00#8 : BitVec (8 + 8))

/-- TAC `data[2]` (R42). -/
def tacEnable (data : Byte) : Bool := data.getLsbD 2

/-- TAC `data[1:0]` (R42). -/
def tacSelect (data : Byte) : BitVec 2 := data.extractLsb' 0 2

/-- IF `data[4:0]` (R43). -/
def ifFlags (data : Byte) : Flags := data.extractLsb' 0 5

/-- JOYP `data[5:4]` as `joyp_select`: bit 0 from bit 4, bit 1 from bit 5 (R34, R38, R183). -/
def joypLines (data : Byte) : BitVec 2 := data.extractLsb' 4 2

/-- The value RD_TAC returns: `TAC_HIGH : enabled : select` (R42, R126). -/
def tacValue (s : State) : Byte :=
  (s.cfg.tacHigh ++ BitVec.ofBool s.clock.timerEnabled ++ s.clock.timerSelect : BitVec (5 + 1 + 2))

/-- The value RD_IF returns: `IF_HIGH : request_flags` (R43, R162). -/
def ifValue (s : State) : Byte := (s.cfg.ifHigh ++ s.requestFlags : BitVec (3 + 5))

/-- The bus-level nibble of one key group: inverted when its active-low line selects it, else all ones (R182). -/
def groupNibble (line : Bool) (keys : BitVec 4) : BitVec 4 := if line then 0b1111 else ~~~keys

/-- The status nibble: the AND of the two bus-level nibbles (R182; 90_conflicts.md C1). -/
def joypNibble (i : InputState) : BitVec 4 :=
  groupNibble (i.select.getLsbD 0) (i.current.extractLsb' 4 4) &&&
    groupNibble (i.select.getLsbD 1) (i.current.extractLsb' 0 4)

/-- The value RD_JOYP returns: `JOYP_HIGH : n` (R38, R182). -/
def joypValue (s : State) : Byte := (s.cfg.joypHigh ++ joypNibble s.input : BitVec (4 + 4))

/-- The value RD_DMA returns: any byte, a fresh free value at each bus read (R44, R146, decision D13). -/
def dmaRegisterValue (s : State) : Byte := Config.dmaRegisterByte s.record.busReads.length

end Sys2Proof.Machine
end

