-- ==== Sys2Proof/Machine/Clock.lean ====
section
/-! DEFINITION. HardwareClock: the clock half of ADVANCE, and the commands on DIV, TIMA, TMA and TAC (41_clock.md). -/

namespace Sys2Proof.Machine

/-- `divider_register <- wrap8(divider_register + 1)` (R112). -/
def dividerTick (s : State) : State :=
  s.setClock { s.clock with dividerRegister := s.clock.dividerRegister + 1 }

/-- `DividerStep(c)` (R112). -/
def dividerStep (c : Int) (s : State) : State :=
  let r := countdown s.cfg.divInterval dividerTick (s.clock.dividerCounter - c) s
  r.2.setClock { r.2.clock with dividerCounter := r.1 }

/-- `TimerTick()`: on 0xFF reload from the modulo and request TIMER, else add 1 (R114). -/
def timerTick (s : State) : State :=
  if s.clock.timerRegister = 0xFF then
    request (flagMask s.cfg.toConfig .timer)
      (s.setClock { s.clock with timerRegister := s.clock.timerModulo })
  else s.setClock { s.clock with timerRegister := s.clock.timerRegister + 1 }

/-- `TimerStep(c)` (R113): nothing while the timer is disabled (R115). -/
def timerStep (c : Int) (s : State) : State :=
  if s.clock.timerEnabled then
    let r := countdown (s.cfg.timerInterval s.clock.timerSelect) timerTick (s.clock.timerCounter - c) s
    r.2.setClock { r.2.clock with timerCounter := r.1 }
  else s

/-- `ClockAdvance(c)` (R110, R111). -/
def clockAdvance (c : Int) (s : State) : State :=
  if c < 0 then s.raise (.negativeCycles c) else timerStep c (dividerStep c s)

/-- RD_DIV (R120). -/
def execRdDiv (s : State) : Host.Outcome State Fault Refusal := .next (s.yield s.clock.dividerRegister)

/-- WR_DIV (R121): "any write resets to 0"; the countdown is kept (decision D11). -/
def execWrDiv (_data : Byte) (s : State) : Host.Outcome State Fault Refusal :=
  .next (s.setClock { s.clock with dividerRegister := 0x00 })

/-- RD_TIMA (R122). -/
def execRdTima (s : State) : Host.Outcome State Fault Refusal := .next (s.yield s.clock.timerRegister)

/-- WR_TIMA (R123): the countdown is kept (decision D12). -/
def execWrTima (data : Byte) (s : State) : Host.Outcome State Fault Refusal :=
  .next (s.setClock { s.clock with timerRegister := data })

/-- RD_TMA (R124). -/
def execRdTma (s : State) : Host.Outcome State Fault Refusal := .next (s.yield s.clock.timerModulo)

/-- WR_TMA (R125). -/
def execWrTma (data : Byte) (s : State) : Host.Outcome State Fault Refusal :=
  .next (s.setClock { s.clock with timerModulo := data })

/-- RD_TAC (R126). -/
def execRdTac (s : State) : Host.Outcome State Fault Refusal := .next (s.yield (tacValue s))

/-- WR_TAC (R127): the countdown and TIMA are kept (decision D12). -/
def execWrTac (data : Byte) (s : State) : Host.Outcome State Fault Refusal :=
  .next (s.setClock { s.clock with timerEnabled := tacEnable data, timerSelect := tacSelect data })

end Sys2Proof.Machine
end

