-- ==== Sys2Proof/Machine/Dma.lean ====
section
/-! DEFINITION. DmaEngine: the DMA half of ADVANCE, DMA_START and the DMA register (42_dma.md). -/

namespace Sys2Proof.Machine

/-- `DMA_START(src)` (R140); while busy it restarts the transfer (R144). -/
def dmaStart (src : Addr) (s : State) : State := s.setDma { source := src, count := 0, busy := true }

/-- `DmaComplete()` (R142). -/
def dmaComplete (s : State) : State := s.setDma { source := 0x0000, count := 0, busy := false }

/-- `wrap16(dma_source + dma_count)` (R141, decision D14). -/
def dmaReadAddr (d : DmaState) : Addr := d.source + BitVec.ofNat 16 d.count

/-- One byte: raw read, OAM write, `dma_count + 1` (R141). -/
def dmaCopy (s : State) : State :=
  (copyByte s (dmaReadAddr s.dma) s.dma.count).setDma { s.dma with count := s.dma.count + 1 }

/-- The loop of `DmaAdvance` with `n` cycle units left (R141). -/
def dmaLoop : Nat → State → State
  | 0, s => s
  | n + 1, s =>
    if dmaLength ≤ s.dma.count then s.raise (.dmaCountRange s.dma.count)
    else if (dmaCopy s).dma.count = dmaLength then dmaComplete (dmaCopy s)
    else dmaLoop n (dmaCopy s)

/-- `DmaAdvance(c)` (R141, R143). -/
def dmaAdvance (c : Int) (s : State) : State :=
  if c < 0 then s.raise (.negativeCycles c)
  else if s.dma.busy then dmaLoop c.toNat s
  else s

/-- DMA_START (R140). -/
def execDmaStart (src : Addr) (s : State) : Host.Outcome State Fault Refusal := .next (dmaStart src s)

/-- WR_DMA (R145): DMA_START with the written byte as the source page. -/
def execWrDma (data : Byte) (s : State) : Host.Outcome State Fault Refusal :=
  .next (dmaStart (pageSource data) s)

/-- RD_DMA (R146). -/
def execRdDma (s : State) : Host.Outcome State Fault Refusal := .next (s.yield (dmaRegisterValue s))

end Sys2Proof.Machine
end

