-- ==== Sys2Proof/Machine/Advance.lean ====
section
/-! DEFINITION. The composite ADVANCE (40_advance.md R101). -/

namespace Sys2Proof.Machine

/-- `ADVANCE(c)`: the clock half, then the DMA half with the same budget (R101). A fault of the clock half stops the
command (60_exceptions.md R200): it is raised exactly when the budget is negative (41_clock.md R111), and it is tested
before any DMA iteration (R205). -/
def advanceBy (c : Int) (s : State) : State :=
  if c < 0 then clockAdvance c s else dmaAdvance c (clockAdvance c s)

/-- ADVANCE (R101): CYCLES is unsigned (30_encoding.md R78). -/
def execAdvance (cycles : Cycles) (s : State) : Host.Outcome State Fault Refusal :=
  .next (advanceBy cycles.toNat s)

end Sys2Proof.Machine
end

