-- ==== Sys2Proof/Machine/Interrupt.lean ====
section
/-! DEFINITION. InterruptController: IRQ_REQ, IRQ_CLR and the IF register (43_interrupts.md). No priority, masking or
dispatch lives here (R164). -/

namespace Sys2Proof.Machine

/-- IRQ_REQ (R160). -/
def execIrqReq (mask : Flags) (s : State) : Host.Outcome State Fault Refusal := .next (request mask s)

/-- IRQ_CLR (R161). -/
def execIrqClr (mask : Flags) (s : State) : Host.Outcome State Fault Refusal := .next (clear mask s)

/-- RD_IF (R162): a read acknowledges nothing. -/
def execRdIf (s : State) : Host.Outcome State Fault Refusal := .next (s.yield (ifValue s))

/-- WR_IF (R163): a plain store of the five bits (decision D8). -/
def execWrIf (data : Byte) (s : State) : Host.Outcome State Fault Refusal := .next (s.setFlags (ifFlags data))

end Sys2Proof.Machine
end

