-- ==== Sys2Proof/Machine/Joypad.lean ====
section
/-! DEFINITION. InputPoller: POLL and the JOYP register (44_joypad.md). -/

namespace Sys2Proof.Machine

/-- The scan "from bit 0 upward", which stops at the first release (R180, R181, decision D22). -/
def firstRelease (released : Byte) : Option Nat := (List.range 8).find? fun i => released.getLsbD i

/-- `POLL(keys)` (R180): one JOYPAD request if some key was pressed and now is not; the select lines play no part
(R184). -/
def pollKeys (keys : Byte) (s : State) : State :=
  let saved := s.setInput { s.input with current := keys, previous := keys }
  match firstRelease (s.input.previous &&& ~~~keys) with
  | some _ => request (flagMask s.cfg.toConfig .joypad) saved
  | none => saved

/-- POLL (R180). -/
def execPoll (keys : Byte) (s : State) : Host.Outcome State Fault Refusal := .next (pollKeys keys s)

/-- RD_JOYP (R182). -/
def execRdJoyp (s : State) : Host.Outcome State Fault Refusal := .next (s.yield (joypValue s))

/-- WR_JOYP (R183): only the two select lines are written. -/
def execWrJoyp (data : Byte) (s : State) : Host.Outcome State Fault Refusal :=
  .next (s.setInput { s.input with select := joypLines data })

end Sys2Proof.Machine
end

