-- ==== Sys2Proof/Machine/Dispatch.lean ====
section
/-! DEFINITION. One arm per command (40_advance.md R100: "perform cmd by its rule"). -/

namespace Sys2Proof.Machine

def exec (i : Instr) (s : State) : Host.Outcome State Fault Refusal :=
  match i with
  | .rdJoyp => Sys2Proof.Machine.execRdJoyp s
  | .wrJoyp data => Sys2Proof.Machine.execWrJoyp data s
  | .rdDiv => Sys2Proof.Machine.execRdDiv s
  | .wrDiv data => Sys2Proof.Machine.execWrDiv data s
  | .rdTima => Sys2Proof.Machine.execRdTima s
  | .wrTima data => Sys2Proof.Machine.execWrTima data s
  | .rdTma => Sys2Proof.Machine.execRdTma s
  | .wrTma data => Sys2Proof.Machine.execWrTma data s
  | .rdTac => Sys2Proof.Machine.execRdTac s
  | .wrTac data => Sys2Proof.Machine.execWrTac data s
  | .rdIf => Sys2Proof.Machine.execRdIf s
  | .wrIf data => Sys2Proof.Machine.execWrIf data s
  | .rdDma => Sys2Proof.Machine.execRdDma s
  | .wrDma data => Sys2Proof.Machine.execWrDma data s
  | .advance cycles => Sys2Proof.Machine.execAdvance cycles s
  | .poll keys => Sys2Proof.Machine.execPoll keys s
  | .irqReq mask => Sys2Proof.Machine.execIrqReq mask s
  | .irqClr mask => Sys2Proof.Machine.execIrqClr mask s
  | .dmaStart src => Sys2Proof.Machine.execDmaStart src s

end Sys2Proof.Machine
end

