-- ==== Sys2Proof/Machine/Step.lean ====
section
/-! DEFINITION. One step of CORE (40_advance.md R100), and how a word is put before it. -/

namespace Sys2Proof.Machine

/-- `Step(S, w)` (R100), the word being the next one the host presents. A faulted state takes no step (R200); a
reserved word sets the refused mark and nothing else (R201); with nothing presented CORE does nothing
(60_exceptions.md R213; log entry 2). -/
def step (s : State) : Host.Outcome State Fault Refusal :=
  match s.fault with
  | some r => .fault r
  | none =>
    match takeCommand s with
    | none => .next s
    | some (w, s') =>
      match decode s'.cfg.toConfig w with
      | .ok i => exec i s'
      | .error _ => .next s'.refuse

/-- `s` with this word presented before anything else (log entry 2): bits from `nbits` up are zero, and a command
word has no byte serialisation (30_encoding.md R81). -/
def State.withFetchWord (s : State) (nbits w : Nat) : State :=
  s.setCommands (BitVec.ofNat 32 (w % 2 ^ nbits) :: s.commands)

end Sys2Proof.Machine
end

