-- ==== Sys2Proof/Machine/Assembler.lean ====
section
/-! DEFINITION. The assembler of 30_encoding.md R82 and R83: pseudo-instruction expansions, the words of a line, and
the reading of a line's text ("one command per line"). Keywords are lists of characters, which the kernel compares
directly. -/

namespace Sys2Proof.Machine

/-- The bus address of a register operand (R82). -/
def regOperandAddr (c : Config) : RegOperand → Addr
  | .name r => c.addrOf r
  | .raw a => a

/-- The expansions of R83; a command line stands for itself. -/
def expandLine : AsmLine → List AsmCommand
  | .command k => [k]
  | .divReset => [.wr (.name .div) 0x00]
  | .timerStart sel => [.wr (.name .tac) (0x04 ||| sel)]
  | .timerStop => [.wr (.name .tac) 0x00]
  | .dmaPage p => [.wr (.name .dma) p]
  | .joypDirs => [.wr (.name .joyp) 0x20]
  | .joypBtns => [.wr (.name .joyp) 0x10]
  | .joypBoth => [.wr (.name .joyp) 0x00]
  | .joypNone => [.wr (.name .joyp) 0x30]
  | .irqAck f => [.irqClr f]
  | .advLong n => List.replicate (n / 0x0FFFFFFF) (.adv 0x0FFFFFFF) ++ [.adv (n % 0x0FFFFFFF)]

/-- The word of a command line (R82's table). A raw address assembles to the word of that address, which the decoder
refuses when it names no register. -/
def assembleCommand (c : Config) : AsmCommand → Word
  | .rd r => encodeRead (regOperandAddr c r)
  | .wr r imm => encodeWrite (regOperandAddr c r) (BitVec.ofNat 8 imm)
  | .adv n => encode c (.advance (BitVec.ofNat 28 n))
  | .poll keys => encode c (.poll (BitVec.ofNat 8 keys))
  | .irqReq mask => encode c (.irqReq (BitVec.ofNat 5 mask))
  | .irqClr mask => encode c (.irqClr (BitVec.ofNat 5 mask))
  | .dmaStart addr => encode c (.dmaStart (BitVec.ofNat 16 addr))

/-- The words of a line; none when an operand is out of its range (R82, R83). -/
def assembleLine (c : Config) (l : AsmLine) : Option (List Word) :=
  if l.wellFormed then some ((expandLine l).map (assembleCommand c)) else none

/-- The register names of R79. -/
def regNames : List (List Char × BusReg) :=
  [ (['J', 'O', 'Y', 'P'], .joyp),
    (['D', 'I', 'V'], .div),
    (['T', 'I', 'M', 'A'], .tima),
    (['T', 'M', 'A'], .tma),
    (['T', 'A', 'C'], .tac),
    (['I', 'F'], .ifReg),
    (['D', 'M', 'A'], .dma) ]

/-- The flag names of R82 and the masks they stand for. -/
def flagNames : List (List Char × Nat) :=
  [ (['V', 'B', 'L', 'A', 'N', 'K'], 0x01),
    (['S', 'T', 'A', 'T'], 0x02),
    (['T', 'I', 'M', 'E', 'R'], 0x04),
    (['S', 'E', 'R', 'I', 'A', 'L'], 0x08),
    (['J', 'O', 'Y', 'P', 'A', 'D'], 0x10) ]

/-- The key names of R82 and the KEYS bits they stand for. -/
def keyNames : List (List Char × Nat) :=
  [ (['D', 'O', 'W', 'N'], 0x80),
    (['U', 'P'], 0x40),
    (['L', 'E', 'F', 'T'], 0x20),
    (['R', 'I', 'G', 'H', 'T'], 0x10),
    (['S', 'T', 'A', 'R', 'T'], 0x08),
    (['S', 'E', 'L', 'E', 'C', 'T'], 0x04),
    (['B'], 0x02),
    (['A'], 0x01),
    (['N', 'O', 'N', 'E'], 0x00) ]

/-- The value of a digit in a base up to 16. -/
def digitValue (base : Nat) (ch : Char) : Option Nat :=
  let n := ch.toNat
  let v := if 48 ≤ n ∧ n ≤ 57 then n - 48
    else if 97 ≤ n ∧ n ≤ 102 then n - 87
    else if 65 ≤ n ∧ n ≤ 70 then n - 55
    else base
  if v < base then some v else none

/-- The digits of a number, after those already read. -/
def readDigits (base : Nat) : Nat → List Char → Option Nat
  | acc, [] => some acc
  | acc, ch :: cs =>
    match digitValue base ch with
    | some v => readDigits base (acc * base + v) cs
    | none => none

/-- "Numbers are written `0x..` (hexadecimal), `0b..` (binary) or decimal" (R82). -/
def readNumber : List Char → Option Nat
  | [] => none
  | ['0', 'x'] => none
  | ['0', 'b'] => none
  | '0' :: 'x' :: ds => readDigits 16 0 ds
  | '0' :: 'b' :: ds => readDigits 2 0 ds
  | ds => readDigits 10 0 ds

/-- A register operand (R82): a name, or `$` and four hexadecimal digits. -/
def readReg : List Char → Option RegOperand
  | ['$', a, b, c, d] => (readDigits 16 0 [a, b, c, d]).map fun n => .raw (BitVec.ofNat 16 n)
  | t => (regNames.lookup t).map .name

/-- A number, or a name that stands for one (R82). -/
def readTerm (names : List (List Char × Nat)) (t : List Char) : Option Nat :=
  match names.lookup t with
  | some n => some n
  | none => readNumber t

/-- Terms "combined with `|`" (R82). -/
def readMask (names : List (List Char × Nat)) : List (List Char) → Option Nat
  | [t] => readTerm names t
  | t :: ['|'] :: ts =>
    match readTerm names t, readMask names ts with
    | some a, some b => some (a ||| b)
    | _, _ => none
  | _ => none

/-- The tokens of a line: spaces separate, and a comma or a bar is a token of its own. `cur` is the token being read,
last character first. -/
def tokens : List Char → List Char → List (List Char)
  | cur, [] => if cur.isEmpty then [] else [cur.reverse]
  | cur, ch :: cs =>
    let done := if cur.isEmpty then [] else [cur.reverse]
    if ch = ' ' then done ++ tokens [] cs
    else if ch = ',' ∨ ch = '|' then done ++ [ch] :: tokens [] cs
    else tokens (ch :: cur) cs

/-- The line a list of tokens writes (R82, R83). -/
def readTokens : List (List Char) → Option AsmLine
  | [] => none
  | op :: args =>
    if op = ['r', 'd'] then
      (match args with | [r] => (readReg r).map fun r => .command (.rd r) | _ => none)
    else if op = ['w', 'r'] then
      (match args with
      | [r, [','], v] =>
        match readReg r, readNumber v with
        | some r, some n => some (.command (.wr r n))
        | _, _ => none
      | _ => none)
    else if op = ['a', 'd', 'v'] then
      (match args with | [v] => (readNumber v).map fun n => .command (.adv n) | _ => none)
    else if op = ['p', 'o', 'l', 'l'] then
      (readMask keyNames args).map fun n => .command (.poll n)
    else if op = ['i', 'r', 'q', '.', 'r', 'e', 'q'] then
      (readMask flagNames args).map fun n => .command (.irqReq n)
    else if op = ['i', 'r', 'q', '.', 'c', 'l', 'r'] then
      (readMask flagNames args).map fun n => .command (.irqClr n)
    else if op = ['d', 'm', 'a', '.', 's', 't', 'a', 'r', 't'] then
      (match args with | [v] => (readNumber v).map fun n => .command (.dmaStart n) | _ => none)
    else if op = ['d', 'i', 'v', '.', 'r', 'e', 's', 'e', 't'] then
      (if args = [] then some .divReset else none)
    else if op = ['t', 'i', 'm', 'e', 'r', '.', 's', 't', 'a', 'r', 't'] then
      (match args with | [v] => (readNumber v).map .timerStart | _ => none)
    else if op = ['t', 'i', 'm', 'e', 'r', '.', 's', 't', 'o', 'p'] then
      (if args = [] then some .timerStop else none)
    else if op = ['d', 'm', 'a', '.', 'p', 'a', 'g', 'e'] then
      (match args with | [v] => (readNumber v).map .dmaPage | _ => none)
    else if op = ['j', 'o', 'y', 'p', '.', 'd', 'i', 'r', 's'] then
      (if args = [] then some .joypDirs else none)
    else if op = ['j', 'o', 'y', 'p', '.', 'b', 't', 'n', 's'] then
      (if args = [] then some .joypBtns else none)
    else if op = ['j', 'o', 'y', 'p', '.', 'b', 'o', 't', 'h'] then
      (if args = [] then some .joypBoth else none)
    else if op = ['j', 'o', 'y', 'p', '.', 'n', 'o', 'n', 'e'] then
      (if args = [] then some .joypNone else none)
    else if op = ['i', 'r', 'q', '.', 'a', 'c', 'k'] then
      (readMask flagNames args).map .irqAck
    else if op = ['a', 'd', 'v', '.', 'l', 'o', 'n', 'g'] then
      (match args with | [v] => (readNumber v).map .advLong | _ => none)
    else none

/-- The line a text writes. -/
def readLine (text : List Char) : Option AsmLine := readTokens (tokens [] text)

/-- The words of a line of text. -/
def assembleText (c : Config) (text : List Char) : Option (List Word) := (readLine text).bind (assembleLine c)

end Sys2Proof.Machine
end

