-- ==== Sys2Proof/Safety.lean ====
section
/-! DEFINITION. The terms claims are stated in: the well-formed state of 10_state.md R47, a good state and a run of
60_exceptions.md R215, and lists of commands performed one after another. -/

namespace Sys2Proof.Machine

/-- The clauses of `WF(S)` (R47) that every step from such a state keeps: all but the refused mark, which a reserved
word sets. -/
abbrev Coherent (s : State) : Prop :=
  (1 ≤ s.clock.dividerCounter ∧ s.clock.dividerCounter ≤ s.cfg.divInterval) ∧
  (1 ≤ s.clock.timerCounter ∧ s.clock.timerCounter ≤ s.cfg.maxTimerInterval) ∧
  s.dma.count ≤ 159 ∧
  (s.dma.busy = false → s.dma.source = 0 ∧ s.dma.count = 0) ∧
  s.input.previous = s.input.current ∧
  s.fault = none

/-- `WF(S)` (R47). -/
abbrev WF (s : State) : Prop := Coherent s ∧ s.refused = false

/-- "A run is good when its final state has `fault = none` and `refused = false`" (R215). -/
abbrev Good (s : State) : Prop := s.fault = none ∧ s.refused = false

/-- The commands `is` performed in order, stopping at the first that does not answer a next state. -/
def perform : List Instr → State → Host.Outcome State Fault Refusal
  | [], s => .next s
  | i :: is, s =>
    match exec i s with
    | .next t => perform is t
    | .fault r => .fault r
    | .refused r => .refused r

/-- A run (R215): a finite list of command words presented one at a time, each to one step. -/
def runWords : List Word → State → Host.Outcome State Fault Refusal
  | [], s => .next s
  | w :: ws, s =>
    match step (s.setCommands [w]) with
    | .next t => runWords ws t
    | .fault r => .fault r
    | .refused r => .refused r

end Sys2Proof.Machine
end

