-- ==== Sys2Proof/Certificates/Slice0/Obligations.lean ====
section
/-! DEFINITION. The statements for the provers: claims about CORE taken from the numbered rules of spec/. Each holds
for every configuration that meets 00_scope.md R7 unless it names the default. -/

open Sys2Proof Sys2Proof.Machine

/-! ## Encoding (30_encoding.md) -/

/-- Words written out in 95_test_vectors.md section 2.1 decode to the commands it gives, or are refused. -/
def Obligations.SpecWordsDecodeToTheirCommands : Prop :=
  decodeTableWord 32 0x1000FF04 = some .rdDiv ∧
  decodeTableWord 32 0x2099FF04 = some (.wrDiv 0x99) ∧
  decodeTableWord 32 0x1000FF00 = some .rdJoyp ∧
  decodeTableWord 32 0x1000FF05 = some .rdTima ∧
  decodeTableWord 32 0x1000FF06 = some .rdTma ∧
  decodeTableWord 32 0x1000FF07 = some .rdTac ∧
  decodeTableWord 32 0x1000FF0F = some .rdIf ∧
  decodeTableWord 32 0x1000FF46 = some .rdDma ∧
  decodeTableWord 32 0x3FFFFFFF = some (.advance 268435455) ∧
  decodeTableWord 32 0x4000007F = some (.poll 0x7F) ∧
  decodeTableWord 32 0x5000001F = some (.irqReq 0x1F) ∧
  decodeTableWord 32 0x60000000 = some (.irqClr 0) ∧
  decodeTableWord 32 0x7000FFF0 = some (.dmaStart 0xFFF0) ∧
  decodeTableWord 32 0x1001FF04 = none ∧
  decodeTableWord 32 0x2100FF04 = none ∧
  decodeTableWord 32 0x1000FF03 = none ∧
  decodeTableWord 32 0x40000100 = none ∧
  decodeTableWord 32 0x80000000 = none

/-- R79: bus commands are decoded by ADDR against the configured addresses, and the match and mask of every command
at the default addresses. -/
def Obligations.OpcodeMapDecodesEveryRow : Prop :=
  (∀ (c : ValidConfig) (a : Addr),
    decode c.toConfig (0x1#4 ++ 0#12 ++ a : BitVec (4 + 12 + 16)) =
      if a = c.addrJoyp then .ok .rdJoyp
      else if a = c.addrDiv then .ok .rdDiv
      else if a = c.addrTima then .ok .rdTima
      else if a = c.addrTma then .ok .rdTma
      else if a = c.addrTac then .ok .rdTac
      else if a = c.addrIf then .ok .rdIf
      else if a = c.addrDma then .ok .rdDma
      else .error .noRegister) ∧
  (∀ (c : ValidConfig) (a : Addr) (d : Byte),
    decode c.toConfig (0x2#4 ++ 0#4 ++ d ++ a : BitVec (4 + 4 + 8 + 16)) =
      if a = c.addrJoyp then .ok (.wrJoyp d)
      else if a = c.addrDiv then .ok (.wrDiv d)
      else if a = c.addrTima then .ok (.wrTima d)
      else if a = c.addrTma then .ok (.wrTma d)
      else if a = c.addrTac then .ok (.wrTac d)
      else if a = c.addrIf then .ok (.wrIf d)
      else if a = c.addrDma then .ok (.wrDma d)
      else .error .noRegister) ∧
  (∀ w : Word,
    let dec := decode ValidConfig.standard.toConfig w
    (w = 0x1000FF00 → dec = .ok .rdJoyp) ∧
    (w &&& 0xFF00FFFF = 0x2000FF00 → dec = .ok (.wrJoyp (w.extractLsb' 16 8))) ∧
    (w = 0x1000FF04 → dec = .ok .rdDiv) ∧
    (w &&& 0xFF00FFFF = 0x2000FF04 → dec = .ok (.wrDiv (w.extractLsb' 16 8))) ∧
    (w = 0x1000FF05 → dec = .ok .rdTima) ∧
    (w &&& 0xFF00FFFF = 0x2000FF05 → dec = .ok (.wrTima (w.extractLsb' 16 8))) ∧
    (w = 0x1000FF06 → dec = .ok .rdTma) ∧
    (w &&& 0xFF00FFFF = 0x2000FF06 → dec = .ok (.wrTma (w.extractLsb' 16 8))) ∧
    (w = 0x1000FF07 → dec = .ok .rdTac) ∧
    (w &&& 0xFF00FFFF = 0x2000FF07 → dec = .ok (.wrTac (w.extractLsb' 16 8))) ∧
    (w = 0x1000FF0F → dec = .ok .rdIf) ∧
    (w &&& 0xFF00FFFF = 0x2000FF0F → dec = .ok (.wrIf (w.extractLsb' 16 8))) ∧
    (w = 0x1000FF46 → dec = .ok .rdDma) ∧
    (w &&& 0xFF00FFFF = 0x2000FF46 → dec = .ok (.wrDma (w.extractLsb' 16 8))) ∧
    (w &&& 0xF0000000 = 0x30000000 → dec = .ok (.advance (w.extractLsb' 0 28))) ∧
    (w &&& 0xFFFFFF00 = 0x40000000 → dec = .ok (.poll (w.extractLsb' 0 8))) ∧
    (w &&& 0xFFFFFFE0 = 0x50000000 → dec = .ok (.irqReq (w.extractLsb' 0 5))) ∧
    (w &&& 0xFFFFFFE0 = 0x60000000 → dec = .ok (.irqClr (w.extractLsb' 0 5))) ∧
    (w &&& 0xFFFF0000 = 0x70000000 → dec = .ok (.dmaStart (w.extractLsb' 0 16))))

/-- Decoding the encoding of a well-formed instruction gives the instruction, for every command, every operand value
and every configuration. -/
def Obligations.DecodeOfEncodeIsTheInstruction : Prop :=
  ∀ (c : ValidConfig) (i : Instr), i.wellFormed = true → decode c.toConfig (encode c.toConfig i) = .ok i

/-- A word that decodes is the encoding of what it decodes to: no bit of an accepted word is ignored. -/
def Obligations.EncodeOfDecodeIsTheWord : Prop :=
  ∀ (c : ValidConfig) (w : Word) (i : Instr), decode c.toConfig w = .ok i → encode c.toConfig i = w

/-- The decoder refuses exactly the words R80 lists: a reserved class, a set reserved bit, an address that is no
register. -/
def Obligations.DecoderRefusesExactlyReservedWords : Prop :=
  ∀ (c : ValidConfig) (w : Word),
    (∃ e, decode c.toConfig w = .error e) ↔
      (reservedClass w = true ∨ reservedBitSet w = true ∨ namesNoRegister c.toConfig w = true)

/-- The command lines of R82 assemble to words that decode to the command they write; a raw address that names no
register assembles to a word that is refused. -/
def Obligations.AssembledCommandsDecode : Prop :=
  ∀ c : ValidConfig,
    (∀ r, decode c.toConfig (assembleCommand c.toConfig (.rd (.name r))) = .ok (readOf r)) ∧
    (∀ r imm, (AsmCommand.wr (.name r) imm).wellFormed = true → ∃ d : Byte, d.toNat = imm ∧
      decode c.toConfig (assembleCommand c.toConfig (.wr (.name r) imm)) = .ok (writeOf d r)) ∧
    (∀ a imm, (∀ r, c.addrOf r ≠ a) →
      decode c.toConfig (assembleCommand c.toConfig (.rd (.raw a))) = .error .noRegister ∧
      decode c.toConfig (assembleCommand c.toConfig (.wr (.raw a) imm)) = .error .noRegister) ∧
    (∀ r imm, assembleCommand c.toConfig (.rd (.raw (c.addrOf r))) = assembleCommand c.toConfig (.rd (.name r)) ∧
      assembleCommand c.toConfig (.wr (.raw (c.addrOf r)) imm) =
        assembleCommand c.toConfig (.wr (.name r) imm)) ∧
    (∀ n, (AsmCommand.adv n).wellFormed = true → ∃ k : Cycles, k.toNat = n ∧
      decode c.toConfig (assembleCommand c.toConfig (.adv n)) = .ok (.advance k)) ∧
    (∀ n, (AsmCommand.poll n).wellFormed = true → ∃ k : Byte, k.toNat = n ∧
      decode c.toConfig (assembleCommand c.toConfig (.poll n)) = .ok (.poll k)) ∧
    (∀ n, (AsmCommand.irqReq n).wellFormed = true → ∃ m : Flags, m.toNat = n ∧
      decode c.toConfig (assembleCommand c.toConfig (.irqReq n)) = .ok (.irqReq m)) ∧
    (∀ n, (AsmCommand.irqClr n).wellFormed = true → ∃ m : Flags, m.toNat = n ∧
      decode c.toConfig (assembleCommand c.toConfig (.irqClr n)) = .ok (.irqClr m)) ∧
    (∀ n, (AsmCommand.dmaStart n).wellFormed = true → ∃ a : Addr, a.toNat = n ∧
      decode c.toConfig (assembleCommand c.toConfig (.dmaStart n)) = .ok (.dmaStart a))

/-- R83: what each pseudo-instruction expands to, and that `adv.long n` spends exactly `n`. -/
def Obligations.PseudoInstructionsExpand : Prop :=
  ∀ c : ValidConfig,
    let run := fun l => (assembleLine c.toConfig l).map (List.map (decode c.toConfig))
    run .divReset = some [.ok (.wrDiv 0x00)] ∧
    (∀ sel : BitVec 2, run (.timerStart sel.toNat) = some [.ok (.wrTac (0x04 ||| sel.setWidth 8))]) ∧
    run .timerStop = some [.ok (.wrTac 0x00)] ∧
    (∀ p : Byte, run (.dmaPage p.toNat) = some [.ok (.wrDma p)]) ∧
    run .joypDirs = some [.ok (.wrJoyp 0x20)] ∧
    run .joypBtns = some [.ok (.wrJoyp 0x10)] ∧
    run .joypBoth = some [.ok (.wrJoyp 0x00)] ∧
    run .joypNone = some [.ok (.wrJoyp 0x30)] ∧
    (∀ m : Flags, run (.irqAck m.toNat) = some [.ok (.irqClr m)]) ∧
    (∀ n : Nat, 2 ^ 28 ≤ n → ∃ last : Cycles, last.toNat = n % 0x0FFFFFFF ∧
      run (.advLong n) =
        some (List.replicate (n / 0x0FFFFFFF) (.ok (.advance 0x0FFFFFFF)) ++ [.ok (.advance last)]) ∧
      n / 0x0FFFFFFF * 0x0FFFFFFF + last.toNat = n)

/-! ## The step (40_advance.md R100) -/

/-- R100: a faulted state takes no step; a refused word sets the refused mark and changes nothing else; any other
word is performed by its command's rule. A bus read yields one byte and every other command yields nothing. -/
def Obligations.StepRunsTheDecodedCommand : Prop :=
  (∀ (s : State) (r : Fault), s.fault = some r → step s = .fault r) ∧
  (∀ (s : State) (w : Word) (ws : List Word), s.fault = none → s.commands = w :: ws →
    (∀ e, decode s.cfg.toConfig w = .error e → step s = .next { s with commands := ws, refused := true }) ∧
    (∀ i, decode s.cfg.toConfig w = .ok i → step s = exec i { s with commands := ws })) ∧
  (∀ (i : Instr) (s t : State), exec i s = .next t →
    if i ∈ [.rdJoyp, .rdDiv, .rdTima, .rdTma, .rdTac, .rdIf, .rdDma] then
      ∃ v, t.record.busReads = s.record.busReads ++ [v]
    else t.record.busReads = s.record.busReads)

/-- With no word presented a step of a state without a fault does nothing. MODEL'S CHOICE (log entry 2), from R213's
"between commands it does nothing". -/
def Obligations.StepWithNothingPresentedIdles : Prop :=
  ∀ s : State, s.fault = none → s.commands = [] → step s = .next s

/-- A list of words presented at once runs as the words presented one at a time: no command depends on the words after
it. It rests on the model's holding the words to come in State (log entry 1), and on its numbering the free values by
the reads made so far (log entries 7 and 8), which both presentations number alike. -/
def Obligations.RunOfAListIsItsWordsOneByOne : Prop :=
  ∀ (ws : List Word) (s : State), s.commands = [] →
    core.run ws.length ({ s with commands := ws } : State) = runWords ws s

/-- Every command answers a next state in every state. A fault of R200, which only a state outside WF can meet, is
recorded in that state (log entry 5). -/
def Obligations.EveryCommandAnswersANextState : Prop :=
  ∀ (i : Instr) (s : State), ∃ t, exec i s = .next t

/-- No step changes the configuration, and a step consumes at most the word next presented. It is about the MODEL'S
holding of the step's parameters in State (log entries 1 and 3) and its idle step (log entry 2). -/
def Obligations.StepKeepsParameters : Prop :=
  ∀ s t : State, step s = .next t → t.cfg = s.cfg ∧ t.commands = s.commands.tail

/-- R201: a reserved word sets the mark and changes nothing else, no step clears the mark, and no state has a
configuration that breaks R7. -/
def Obligations.ReservedWordSetsOnlyTheRefusedMark : Prop :=
  (∀ (s : State) (w : Word) (ws : List Word), s.fault = none → s.commands = w :: ws →
    legalWord s.cfg.toConfig w = false → step s = .next { s with commands := ws, refused := true }) ∧
  (∀ s t : State, step s = .next t → s.refused = true → t.refused = true) ∧
  (∀ s : State, s.cfg.toConfig.valid = true)

/-- R36: once set, neither the fault nor the refused mark is ever cleared, and reset has neither. -/
def Obligations.FaultAndRefusedAreNeverCleared : Prop :=
  (∀ (i : Instr) (s t : State), exec i s = .next t →
    (s.fault ≠ none → t.fault ≠ none) ∧ (s.refused = true → t.refused = true)) ∧
  (∀ s t : State, s.fault ≠ none → step s ≠ .next t) ∧
  (∀ s t : State, step s = .next t → s.refused = true → t.refused = true) ∧
  (∀ c : ValidConfig, (State.resetWith c).fault = none ∧ (State.resetWith c).refused = false)

/-- R200 and R111: the two faults, exactly when each is raised and what it records; neither is reachable from a
well-formed state through a command, and a faulted state takes no further step. -/
def Obligations.FaultsAreExactlyTheTwoOfTheSpec : Prop :=
  (∀ (c : Int) (s : State), c < 0 →
    clockAdvance c s = { s with fault := some (.negativeCycles c) } ∧
    dmaAdvance c s = { s with fault := some (.negativeCycles c) }) ∧
  (∀ (i : Instr) (s t : State), exec i s = .next t →
    if (∃ c : Cycles, i = .advance c ∧ c ≠ 0) ∧ s.dma.busy = true ∧ 160 ≤ s.dma.count then
      t.fault = some (.dmaCountRange s.dma.count)
    else t.fault = s.fault) ∧
  (∀ (i : Instr) (s t : State), WF s → exec i s = .next t → t.fault = none) ∧
  (∀ (s : State) (r : Fault), s.fault = some r → step s = .fault r)

/-! ## The clock (41_clock.md) -/

/-- R120 and R121: RD_DIV yields DIV; WR_DIV clears it whatever the data and keeps the countdown. -/
def Obligations.DivReadYieldsAndWriteClears : Prop :=
  (∀ s : State, exec .rdDiv s =
    .next { s with record := { s.record with busReads := s.record.busReads ++ [s.clock.dividerRegister] } }) ∧
  (∀ (s : State) (d : Byte), exec (.wrDiv d) s =
    .next { s with clock := { s.clock with dividerRegister := 0x00 } }) ∧
  (∀ c : ValidConfig,
    decode c.toConfig (0x1#4 ++ 0#12 ++ c.addrDiv : BitVec (4 + 12 + 16)) = .ok .rdDiv ∧
    ∀ d : Byte, decode c.toConfig (0x2#4 ++ 0#4 ++ d ++ c.addrDiv : BitVec (4 + 4 + 8 + 16)) = .ok (.wrDiv d)) ∧
  ValidConfig.standard.addrDiv = 0xFF04

/-- R122 and R123: RD_TIMA yields TIMA; WR_TIMA stores it, requests nothing and keeps the countdown. -/
def Obligations.TimaReadYieldsAndWriteStores : Prop :=
  (∀ s : State, exec .rdTima s =
    .next { s with record := { s.record with busReads := s.record.busReads ++ [s.clock.timerRegister] } }) ∧
  (∀ (s : State) (d : Byte), exec (.wrTima d) s =
    .next { s with clock := { s.clock with timerRegister := d } }) ∧
  (∀ c : ValidConfig,
    decode c.toConfig (0x1#4 ++ 0#12 ++ c.addrTima : BitVec (4 + 12 + 16)) = .ok .rdTima ∧
    ∀ d : Byte, decode c.toConfig (0x2#4 ++ 0#4 ++ d ++ c.addrTima : BitVec (4 + 4 + 8 + 16)) = .ok (.wrTima d)) ∧
  ValidConfig.standard.addrTima = 0xFF05

/-- R124 and R125: RD_TMA yields TMA; WR_TMA stores it and changes nothing else, and the next overflow reloads the
value written. -/
def Obligations.TmaReadYieldsAndWriteStores : Prop :=
  (∀ s : State, exec .rdTma s =
    .next { s with record := { s.record with busReads := s.record.busReads ++ [s.clock.timerModulo] } }) ∧
  (∀ (s : State) (d : Byte), exec (.wrTma d) s =
    .next { s with clock := { s.clock with timerModulo := d } }) ∧
  (∀ (s : State) (d : Byte) (c : Cycles), s.clock.timerEnabled = true → s.clock.timerRegister = 0xFF →
    s.clock.timerCounter - c.toNat ≤ 0 →
    1 ≤ s.clock.timerCounter - c.toNat + s.cfg.timerInterval s.clock.timerSelect →
    ∃ t, perform [.wrTma d, .advance c] s = .next t ∧ t.clock.timerRegister = d) ∧
  (∀ c : ValidConfig,
    decode c.toConfig (0x1#4 ++ 0#12 ++ c.addrTma : BitVec (4 + 12 + 16)) = .ok .rdTma ∧
    ∀ d : Byte, decode c.toConfig (0x2#4 ++ 0#4 ++ d ++ c.addrTma : BitVec (4 + 4 + 8 + 16)) = .ok (.wrTma d)) ∧
  ValidConfig.standard.addrTma = 0xFF06

/-- R126 and R127: RD_TAC yields `TAC_HIGH : enabled : select`; WR_TAC stores bit 2 and bits 1:0, ignores the rest,
and keeps the countdown and TIMA. The interval is the table entry of the select. -/
def Obligations.TacReadYieldsAndWriteStores : Prop :=
  (∀ s : State, exec .rdTac s =
    .next { s with record := { s.record with busReads := s.record.busReads ++
      [(s.cfg.tacHigh ++ (if s.clock.timerEnabled then 1#1 else 0#1) ++ s.clock.timerSelect :
        BitVec (5 + 1 + 2))] } }) ∧
  (∀ (s : State) (d : Byte), exec (.wrTac d) s =
    .next { s with clock := { s.clock with timerEnabled := d.getLsbD 2, timerSelect := d.extractLsb' 0 2 } }) ∧
  (∀ c : ValidConfig,
    c.timerInterval 0b00 = c.timerTable.get 0 ∧ c.timerInterval 0b01 = c.timerTable.get 1 ∧
    c.timerInterval 0b10 = c.timerTable.get 2 ∧ c.timerInterval 0b11 = c.timerTable.get 3) ∧
  (∀ c : ValidConfig,
    decode c.toConfig (0x1#4 ++ 0#12 ++ c.addrTac : BitVec (4 + 12 + 16)) = .ok .rdTac ∧
    ∀ d : Byte, decode c.toConfig (0x2#4 ++ 0#4 ++ d ++ c.addrTac : BitVec (4 + 4 + 8 + 16)) = .ok (.wrTac d)) ∧
  ValidConfig.standard.addrTac = 0xFF07

/-- The closed form of the divider: how often DIV increments on a budget and where the countdown ends. -/
def Obligations.AdvanceDividerClosedForm : Prop :=
  ∀ (s : State) (c : Cycles), 1 ≤ s.clock.dividerCounter →
    let d := s.clock.dividerCounter
    let k : Nat := if (c.toNat : Int) < d then 0 else ((c.toNat - d) / s.cfg.divInterval).toNat + 1
    ∃ t, exec (.advance c) s = .next t ∧
      t.clock.dividerCounter = d - c.toNat + k * s.cfg.divInterval ∧
      t.clock.dividerRegister = s.clock.dividerRegister + BitVec.ofNat 8 k ∧
      (d ≤ s.cfg.divInterval →
        1 ≤ t.clock.dividerCounter ∧ t.clock.dividerCounter ≤ s.cfg.divInterval)

/-- The closed form of the enabled timer: ticks, remainder, TIMA with its reload period, and the TIMER request. -/
def Obligations.AdvanceTimerClosedForm : Prop :=
  ∀ (s : State) (c : Cycles), s.clock.timerEnabled = true → 1 ≤ s.clock.timerCounter →
    let j := s.cfg.timerInterval s.clock.timerSelect
    let d := s.clock.timerCounter
    let k : Nat := if (c.toNat : Int) < d then 0 else ((c.toNat - d) / j).toNat + 1
    let n0 := 256 - s.clock.timerRegister.toNat
    let p := 256 - s.clock.timerModulo.toNat
    ∃ t, exec (.advance c) s = .next t ∧
      t.clock.timerCounter = d - c.toNat + k * j ∧
      (k < n0 → t.clock.timerRegister.toNat = s.clock.timerRegister.toNat + k ∧
        t.requestFlags = s.requestFlags) ∧
      (n0 ≤ k → t.clock.timerRegister.toNat = s.clock.timerModulo.toNat + (k - n0) % p ∧
        t.requestFlags = s.requestFlags ||| (1#5 <<< s.cfg.vecTimer))

/-- R114: one tick adds 1 to TIMA, or from 0xFF reloads TMA and sets TIMER leaving the other flags; with TMA and TIMA
0xFF every tick overflows and TIMA stays 0xFF. -/
def Obligations.TimerTickIncrementsOrReloads : Prop :=
  (∀ (s : State) (c : Cycles), s.clock.timerEnabled = true →
    s.clock.timerCounter - c.toNat ≤ 0 →
    1 ≤ s.clock.timerCounter - c.toNat + s.cfg.timerInterval s.clock.timerSelect →
    ∃ t, exec (.advance c) s = .next t ∧
      if s.clock.timerRegister = 0xFF then
        t.clock.timerRegister = s.clock.timerModulo ∧
          t.requestFlags = s.requestFlags ||| (1#5 <<< s.cfg.vecTimer)
      else t.clock.timerRegister = s.clock.timerRegister + 1 ∧ t.requestFlags = s.requestFlags) ∧
  (∀ (s : State) (c : Cycles), s.clock.timerEnabled = true → s.clock.timerRegister = 0xFF →
    s.clock.timerModulo = 0xFF →
    ∃ t, exec (.advance c) s = .next t ∧ t.clock.timerRegister = 0xFF ∧
      (s.clock.timerCounter - c.toNat ≤ 0 →
        t.requestFlags = s.requestFlags ||| (1#5 <<< s.cfg.vecTimer)))

/-- R115: while the timer is disabled ADVANCE leaves TIMA, its countdown and the flags unchanged for any budget; the
divider runs the same whether or not the timer is enabled. -/
def Obligations.DisabledTimerIsFrozen : Prop :=
  (∀ (s : State) (c : Cycles), s.clock.timerEnabled = false →
    ∃ t, exec (.advance c) s = .next t ∧
      t.clock.timerRegister = s.clock.timerRegister ∧ t.clock.timerCounter = s.clock.timerCounter ∧
      t.requestFlags = s.requestFlags) ∧
  (∀ (s : State) (c : Cycles) (b : Bool),
    ∃ t u, exec (.advance c) s = .next t ∧
      exec (.advance c) { s with clock := { s.clock with timerEnabled := b } } = .next u ∧
      u.clock.dividerCounter = t.clock.dividerCounter ∧ u.clock.dividerRegister = t.clock.dividerRegister)

/-- Advancing by any partition of a total into one or more calls leaves the clock and the flags as one call with the
total does. The source's own property is the two registers; the countdowns and the TIMER request are the spec's
inference (R116, "It holds also for"). -/
def Obligations.ClockIsInvariantUnderPartition : Prop :=
  ∀ (s : State) (parts : List Cycles) (total : Cycles), parts ≠ [] →
    total.toNat = (parts.map BitVec.toNat).sum →
    ∃ t u, perform (parts.map .advance) s = .next t ∧ exec (.advance total) s = .next u ∧
      t.clock = u.clock ∧ t.requestFlags = u.requestFlags

/-- Two ADVANCE commands in a row leave the very state that one with the summed budget leaves: clock, flags, DMA state,
OAM, and the raw reads and OAM writes in order. It is the spec's own inference (R102, "[derived: from 41_clock.md rule
R116 and 42_dma.md rule R148]"), with R102's proviso that the oracle answers alike in both runs: in the model it does,
because the n-th raw read of the session at an address has one answer (log entry 7, unsafe for this very claim). -/
def Obligations.AdvanceIsInvariantUnderSplitting : Prop :=
  ∀ (s : State) (a b total : Cycles), total.toNat = a.toNat + b.toNat →
    (s.dma.busy = true → s.dma.count < 160) →
    ∃ t u, exec (.advance a) s = .next t ∧ exec (.advance b) t = .next u ∧ exec (.advance total) s = .next u

/-- From reset the divider keeps the exact long-run rate: after a cumulative budget T it reads T / DIV_INTERVAL modulo
256, however T is split. It is the spec's own inference (R117, "after a cumulative budget T the register is"), and rests
on the reset countdown DIV_INTERVAL, the spec's decision D17 (log entry 15). -/
def Obligations.DividerKeepsLongRunRate : Prop :=
  ∀ (c : ValidConfig) (parts : List Cycles),
    ∃ t, perform (parts.map .advance) (State.resetWith c) = .next t ∧
      t.clock.dividerRegister = BitVec.ofNat 8 ((parts.map BitVec.toNat).sum / c.divInterval)

/-- ADVANCE 0 from a well-formed state changes nothing. -/
def Obligations.AdvanceZeroChangesNothing : Prop :=
  ∀ s : State, Coherent s → exec (.advance 0) s = .next s

/-- What ADVANCE leaves unchanged, in every state: the configuration, the words to come, TMA, the enable and the
select, every flag but TIMER, the joypad state, the refused mark and the bus-read results. Outside a transfer also
the DMA state, OAM, the fault and the rest of the record. -/
def Obligations.AdvanceFrame : Prop :=
  ∀ (s : State) (c : Cycles), ∃ t, exec (.advance c) s = .next t ∧
    t.cfg = s.cfg ∧ t.commands = s.commands ∧ t.input = s.input ∧ t.refused = s.refused ∧
    t.record.busReads = s.record.busReads ∧
    t.clock.timerModulo = s.clock.timerModulo ∧ t.clock.timerEnabled = s.clock.timerEnabled ∧
    t.clock.timerSelect = s.clock.timerSelect ∧
    (∀ k, k ≠ s.cfg.vecTimer → t.requestFlags.getLsbD k = s.requestFlags.getLsbD k) ∧
    (s.dma.busy = false → t.dma = s.dma ∧ t.oam = s.oam ∧ t.fault = s.fault ∧ t.record = s.record) ∧
    (s.dma.busy = true → s.dma.count < 160 → t.fault = s.fault) ∧
    (∀ off, ¬(s.dma.busy = true ∧ s.dma.count ≤ off ∧ off < 160 ∧ off < s.dma.count + c.toNat) →
      t.oam.read off = s.oam.read off)

/-! ## The DMA engine (42_dma.md) -/

/-- R140 and R145: DMA_START sets the source, clears the count and sets busy, and nothing else; WR_DMA starts from
page `DATA * 256`. -/
def Obligations.DmaStartAndPageWriteBeginATransfer : Prop :=
  (∀ (s : State) (src : Addr), exec (.dmaStart src) s =
    .next { s with dma := { source := src, count := 0, busy := true } }) ∧
  (∀ (s : State) (d : Byte), exec (.wrDma d) s =
    .next { s with dma := { source := BitVec.ofNat 16 (d.toNat * 256), count := 0, busy := true } }) ∧
  (∀ (c : ValidConfig) (src : Addr),
    decode c.toConfig (0x7#4 ++ 0#12 ++ src : BitVec (4 + 12 + 16)) = .ok (.dmaStart src)) ∧
  (∀ (c : ValidConfig) (d : Byte),
    decode c.toConfig (0x2#4 ++ 0#4 ++ d ++ c.addrDma : BitVec (4 + 4 + 8 + 16)) = .ok (.wrDma d)) ∧
  ValidConfig.standard.addrDma = 0xFF46

/-- R146: RD_DMA yields some byte (a free value, log entry 8) and changes no state. -/
def Obligations.DmaRegisterReadYieldsSomeByte : Prop :=
  (∀ s : State, ∃ v : Byte, exec .rdDma s =
    .next { s with record := { s.record with busReads := s.record.busReads ++ [v] } }) ∧
  (∀ c : ValidConfig, decode c.toConfig (0x1#4 ++ 0#12 ++ c.addrDma : BitVec (4 + 12 + 16)) = .ok .rdDma) ∧
  ValidConfig.standard.addrDma = 0xFF46

/-- ADVANCE during a transfer copies min(c, 160 - n) bytes: which raw reads and OAM writes it makes, in order, which
OAM bytes it changes, and the DMA state it leaves. The bytes are the oracle's answers (free values, log entry 7). -/
def Obligations.AdvanceCopiesTheNextBytes : Prop :=
  ∀ (s : State) (c : Cycles), s.dma.busy = true → s.dma.count < 160 →
    let n := s.dma.count
    let m := min c.toNat (160 - n)
    let addr := fun j => s.dma.source + BitVec.ofNat 16 (n + j)
    let byte := fun j => Config.rawByte (s.record.rawReads.length + j) (addr j)
    ∃ t, exec (.advance c) s = .next t ∧
      t.dma = (if 160 - n ≤ c.toNat then { source := 0x0000, count := 0, busy := false }
        else { source := s.dma.source, count := n + c.toNat, busy := true }) ∧
      t.record.rawReads = s.record.rawReads ++ (List.range m).map (fun j => ((addr j).toNat, byte j)) ∧
      t.record.oamWrites = s.record.oamWrites ++ (List.range m).map (fun j => (n + j, byte j)) ∧
      (∀ j, j < m → t.oam.read (n + j) = some (byte j)) ∧
      (∀ off, ¬(n ≤ off ∧ off < n + m) → t.oam.read off = s.oam.read off)

/-- A started transfer given 160 cycle units copies the 160 bytes from the source to OAM offsets 0 to 159 in order,
with the address wrapping modulo 2^16, and ends idle. The bytes are the oracle's answers, free values numbered by the
raw reads made so far (log entry 7). -/
def Obligations.FullTransferFillsOam : Prop :=
  ∀ (s : State) (src : Addr), ∃ t, perform [.dmaStart src, .advance 160] s = .next t ∧
    (∀ j, j < 160 → t.oam.read j =
      some (Config.rawByte (s.record.rawReads.length + j) (src + BitVec.ofNat 16 j))) ∧
    t.record.rawReads.map Prod.fst =
      s.record.rawReads.map Prod.fst ++ (List.range 160).map (fun j => (src.toNat + j) % 65536) ∧
    t.dma = { source := 0x0000, count := 0, busy := false }

/-- R143: while idle the DMA half of ADVANCE makes no raw read, no OAM write and no state change. -/
def Obligations.IdleDmaDoesNothing : Prop :=
  (∀ (s : State) (c : Int), 0 ≤ c → s.dma.busy = false → dmaAdvance c s = s) ∧
  (∀ (s : State) (c : Cycles), s.dma.busy = false → ∃ t, exec (.advance c) s = .next t ∧
    t.dma = s.dma ∧ t.oam = s.oam ∧ t.record = s.record)

/-- R147: the DMA engine never requests an interrupt: the DMA half keeps the flags, and the flags an ADVANCE leaves do
not depend on the DMA state. -/
def Obligations.DmaRequestsNoInterrupt : Prop :=
  (∀ (s : State) (c : Int), (dmaAdvance c s).requestFlags = s.requestFlags) ∧
  (∀ (s : State) (c : Cycles) (d : DmaState), ∃ t u, exec (.advance c) s = .next t ∧
    exec (.advance c) { s with dma := d } = .next u ∧ t.requestFlags = u.requestFlags)

/-- R142 and R144: a transfer in flight is left alone, advanced with a growing count, completed (source, count and busy
cleared together, exactly when the budget reaches the length), or restarted; nothing else ends it. A restart and the
advances of the transfer keep the bytes already copied, and no ADVANCE half of it requests an interrupt or returns a
value. -/
def Obligations.TransferEndsOnlyByCompletionOrRestart : Prop :=
  (∀ (i : Instr) (s t : State), s.dma.busy = true → s.dma.count < 160 → exec i s = .next t →
    match i with
    | .dmaStart src => t.dma = { source := src, count := 0, busy := true } ∧ t.oam = s.oam
    | .wrDma d => t.dma = { source := d ++ 0x00#8, count := 0, busy := true } ∧ t.oam = s.oam
    | .advance c =>
      (if 160 ≤ s.dma.count + c.toNat then t.dma = { source := 0x0000, count := 0, busy := false }
        else t.dma = { s.dma with count := s.dma.count + c.toNat }) ∧
      ∀ off, off < s.dma.count → t.oam.read off = s.oam.read off
    | _ => t.dma = s.dma ∧ t.oam = s.oam) ∧
  (∀ (s t : State) (c : Int), s.dma.count < 160 → 0 ≤ c → dmaAdvance c s = t →
    t.requestFlags = s.requestFlags ∧ t.record.busReads = s.record.busReads)

/-! ## Interrupt flags (43_interrupts.md) -/

/-- R160 to R163: IRQ_REQ ORs its mask in, IRQ_CLR takes it out, RD_IF yields `IF_HIGH : flags` and acknowledges
nothing, WR_IF stores the five bits. -/
def Obligations.FlagCommandsSetClearReadAndStore : Prop :=
  (∀ (s : State) (m : Flags), exec (.irqReq m) s = .next { s with requestFlags := s.requestFlags ||| m }) ∧
  (∀ (s : State) (m : Flags), exec (.irqClr m) s = .next { s with requestFlags := s.requestFlags &&& ~~~m }) ∧
  (∀ s : State, exec .rdIf s =
    .next { s with record := { s.record with busReads := s.record.busReads ++
      [(s.cfg.ifHigh ++ s.requestFlags : BitVec (3 + 5))] } }) ∧
  (∀ (s : State) (d : Byte), exec (.wrIf d) s = .next { s with requestFlags := d.extractLsb' 0 5 }) ∧
  (∀ c : ValidConfig,
    (∀ m : Flags, decode c.toConfig (0x5#4 ++ 0#23 ++ m : BitVec (4 + 23 + 5)) = .ok (.irqReq m)) ∧
    (∀ m : Flags, decode c.toConfig (0x6#4 ++ 0#23 ++ m : BitVec (4 + 23 + 5)) = .ok (.irqClr m)) ∧
    decode c.toConfig (0x1#4 ++ 0#12 ++ c.addrIf : BitVec (4 + 12 + 16)) = .ok .rdIf ∧
    (∀ d : Byte, decode c.toConfig (0x2#4 ++ 0#4 ++ d ++ c.addrIf : BitVec (4 + 4 + 8 + 16)) = .ok (.wrIf d))) ∧
  ValidConfig.standard.addrIf = 0xFF0F

/-- Requests and clears accumulate: two requests are one with both masks, two clears likewise, and a clear after a
request wins on the bits both name. -/
def Obligations.RequestsAndClearsAccumulate : Prop :=
  ∀ (s : State) (a b : Flags),
    (∃ t, perform [.irqReq a, .irqReq b] s = .next t ∧ exec (.irqReq (a ||| b)) s = .next t) ∧
    (∃ t, perform [.irqClr a, .irqClr b] s = .next t ∧ exec (.irqClr (a ||| b)) s = .next t) ∧
    (∃ t, perform [.irqReq a, .irqClr b] s = .next t ∧
      t.requestFlags = (s.requestFlags ||| a) &&& ~~~b ∧
      ∀ k, b.getLsbD k = true → t.requestFlags.getLsbD k = false)

/-- R45: every change of a flag by a command has its producer. A flag becomes set only by IRQ_REQ, by WR_IF, by an
ADVANCE whose ticks take TIMA past 0xFF (TIMER alone) or by a POLL that sees a release (JOYPAD alone), and a set flag
stays set until IRQ_CLR or WR_IF clears it. -/
def Obligations.FlagsChangeOnlyByTheirProducers : Prop :=
  ∀ (i : Instr) (s t : State) (k : Nat), k < 5 → exec i s = .next t →
    (s.requestFlags.getLsbD k = false → t.requestFlags.getLsbD k = true →
      (∃ m, i = .irqReq m ∧ m.getLsbD k = true) ∨ (∃ d, i = .wrIf d ∧ d.getLsbD k = true) ∨
      (∃ (c : Cycles) (ticks : Nat), i = .advance c ∧ k = s.cfg.vecTimer ∧ s.clock.timerEnabled = true ∧
        t.clock.timerCounter = s.clock.timerCounter - c.toNat +
          ticks * s.cfg.timerInterval s.clock.timerSelect ∧
        256 ≤ s.clock.timerRegister.toNat + ticks) ∨
      (∃ keys, i = .poll keys ∧ k = s.cfg.vecJoypad ∧ s.input.previous &&& ~~~keys ≠ 0)) ∧
    (s.requestFlags.getLsbD k = true → t.requestFlags.getLsbD k = false →
      (∃ m, i = .irqClr m ∧ m.getLsbD k = true) ∨ (∃ d, i = .wrIf d ∧ d.getLsbD k = false))

/-! ## The joypad (44_joypad.md) -/

/-- R180 and R181: POLL stores the keys as current and previous, and requests JOYPAD once if and only if some key was
pressed before and is not now; nothing else changes. -/
def Obligations.PollStoresKeysAndRequestsOnRelease : Prop :=
  (∀ (s : State) (keys : Byte), exec (.poll keys) s =
    .next { s with
      input := { s.input with current := keys, previous := keys }
      requestFlags :=
        if ∃ k, k < 8 ∧ s.input.previous.getLsbD k = true ∧ keys.getLsbD k = false then
          s.requestFlags ||| (1#5 <<< s.cfg.vecJoypad)
        else s.requestFlags }) ∧
  (∀ (c : ValidConfig) (keys : Byte),
    decode c.toConfig (0x4#4 ++ 0#20 ++ keys : BitVec (4 + 20 + 8)) = .ok (.poll keys))

/-- R182 and R183: RD_JOYP yields `JOYP_HIGH : n` with n the AND of the selected groups' inverted nibbles; WR_JOYP
latches bits 4 and 5 alone. -/
def Obligations.JoypReadYieldsSelectedGroups : Prop :=
  (∀ s : State,
    let n := (if s.input.select.getLsbD 0 = false then ~~~(s.input.current.extractLsb' 4 4) else 0b1111#4) &&&
      (if s.input.select.getLsbD 1 = false then ~~~(s.input.current.extractLsb' 0 4) else 0b1111#4)
    exec .rdJoyp s =
      .next { s with record := { s.record with busReads := s.record.busReads ++
        [(s.cfg.joypHigh ++ n : BitVec (4 + 4))] } }) ∧
  (∀ (s : State) (d : Byte), ∃ t, exec (.wrJoyp d) s = .next t ∧
    t = { s with input := { s.input with select := t.input.select } } ∧
    t.input.select.getLsbD 0 = d.getLsbD 4 ∧ t.input.select.getLsbD 1 = d.getLsbD 5) ∧
  (∀ c : ValidConfig,
    decode c.toConfig (0x1#4 ++ 0#12 ++ c.addrJoyp : BitVec (4 + 12 + 16)) = .ok .rdJoyp ∧
    ∀ d : Byte, decode c.toConfig (0x2#4 ++ 0#4 ++ d ++ c.addrJoyp : BitVec (4 + 4 + 8 + 16)) = .ok (.wrJoyp d)) ∧
  ValidConfig.standard.addrJoyp = 0xFF00

/-- A status bit of JOYP reads 0 exactly when a key of a selected group on that bit is pressed; with no group selected
the nibble is 0b1111. -/
def Obligations.JoypBitIsZeroIffASelectedKeyIsPressed : Prop :=
  ∀ s : State, ∃ (t : State) (v : Byte), exec .rdJoyp s = .next t ∧
    t.record.busReads = s.record.busReads ++ [v] ∧
    ∀ k, k < 4 → (v.getLsbD k = false ↔
      (s.input.select.getLsbD 0 = false ∧ s.input.current.getLsbD (k + 4) = true) ∨
      (s.input.select.getLsbD 1 = false ∧ s.input.current.getLsbD k = true))

/-- R184: the release edge compares all eight bits and ignores the select lines: runs from states that differ in the
select lines alone differ in them alone after a POLL, pressing keys requests nothing, and no other command changes the
masks a POLL compares. -/
def Obligations.PollIgnoresTheSelectLines : Prop :=
  (∀ (s : State) (keys : Byte) (sel : BitVec 2), ∃ t, exec (.poll keys) s = .next t ∧
    exec (.poll keys) { s with input := { s.input with select := sel } } =
      .next { t with input := { t.input with select := sel } }) ∧
  (∀ (s : State) (k : Nat) (keys : Byte), s.input.previous.getLsbD k = true → keys.getLsbD k = false →
    ∃ t, exec (.poll keys) s = .next t ∧
      t.requestFlags = s.requestFlags ||| (1#5 <<< s.cfg.vecJoypad)) ∧
  (∀ (s : State) (keys : Byte), (∀ k, s.input.previous.getLsbD k = true → keys.getLsbD k = true) →
    ∃ t, exec (.poll keys) s = .next t ∧ t.requestFlags = s.requestFlags) ∧
  (∀ (i : Instr) (s t : State), exec i s = .next t → (∀ keys, i ≠ .poll keys) →
    t.input.previous = s.input.previous ∧ t.input.current = s.input.current)

/-! ## Whole-machine rules (10_state.md) -/

/-- R25: only WR_TMA writes `timer_modulo`; RD_TMA returns it; an overflow reads it; it resets to 0. -/
def Obligations.OnlyWrTmaWritesTheModulo : Prop :=
  (∀ (i : Instr) (s t : State), exec i s = .next t →
    t.clock.timerModulo = (match i with | .wrTma d => d | _ => s.clock.timerModulo)) ∧
  (∀ s : State, ∃ t, exec .rdTma s = .next t ∧
    t.record.busReads = s.record.busReads ++ [s.clock.timerModulo]) ∧
  (∀ (s : State) (c : Cycles), s.clock.timerEnabled = true → s.clock.timerRegister = 0xFF →
    s.clock.timerCounter - c.toNat ≤ 0 →
    1 ≤ s.clock.timerCounter - c.toNat + s.cfg.timerInterval s.clock.timerSelect →
    ∃ t, exec (.advance c) s = .next t ∧ t.clock.timerRegister = s.clock.timerModulo) ∧
  (∀ c : ValidConfig, (State.resetWith c).clock.timerModulo = 0x00)

/-- R26: only WR_TAC writes `timer_enabled`, from bit 2, and it resets to false; likewise the select, from bits 1:0.
ADVANCE reads the enable: it counts the budget off the timer's countdown if the enable is set, and not otherwise. -/
def Obligations.OnlyWrTacWritesEnableAndSelect : Prop :=
  (∀ (i : Instr) (s t : State), exec i s = .next t →
    t.clock.timerEnabled = (match i with | .wrTac d => d.getLsbD 2 | _ => s.clock.timerEnabled) ∧
    t.clock.timerSelect = (match i with | .wrTac d => d.extractLsb' 0 2 | _ => s.clock.timerSelect)) ∧
  (∀ (s : State) (c : Cycles), s.clock.timerEnabled = false → ∃ t, exec (.advance c) s = .next t ∧
    t.clock.timerRegister = s.clock.timerRegister ∧ t.clock.timerCounter = s.clock.timerCounter) ∧
  (∀ (s : State) (c : Cycles), s.clock.timerEnabled = true → (c.toNat : Int) < s.clock.timerCounter →
    ∃ t, exec (.advance c) s = .next t ∧ t.clock.timerCounter = s.clock.timerCounter - c.toNat) ∧
  (∀ c : ValidConfig, (State.resetWith c).clock.timerEnabled = false ∧
    (State.resetWith c).clock.timerSelect = 0b00)

/-- R22: DIV is incremented modulo 256 by ADVANCE, once per trigger of the countdown, cleared by WR_DIV, returned by
RD_DIV, written by nothing else, and resets to 0. `k` is the number of triggers: the counter ends at `k` intervals above
what the budget leaves, positive, and at most one interval if it triggered at all. -/
def Obligations.DivChangesOnlyByAdvanceAndItsWrite : Prop :=
  (∀ (i : Instr) (s t : State), exec i s = .next t →
    match i with
    | .advance c => ∃ k : Nat, t.clock.dividerRegister = s.clock.dividerRegister + BitVec.ofNat 8 k ∧
        t.clock.dividerCounter = s.clock.dividerCounter - c.toNat + k * s.cfg.divInterval ∧
        1 ≤ t.clock.dividerCounter ∧ (k ≠ 0 → t.clock.dividerCounter ≤ s.cfg.divInterval)
    | .wrDiv _ => t.clock.dividerRegister = 0x00
    | _ => t.clock.dividerRegister = s.clock.dividerRegister) ∧
  (∀ s : State, ∃ t, exec .rdDiv s = .next t ∧
    t.record.busReads = s.record.busReads ++ [s.clock.dividerRegister]) ∧
  (∀ c : ValidConfig, (State.resetWith c).clock.dividerRegister = 0x00)

/-- R237: no register write restarts a countdown: only ADVANCE changes either, so after WR_DIV the first increment comes
after exactly the remaining units, and after WR_TAC the first tick of an enabled timer likewise. -/
def Obligations.CountdownsSurviveRegisterWrites : Prop :=
  (∀ (i : Instr) (s t : State), exec i s = .next t → (∀ c, i ≠ .advance c) →
    t.clock.dividerCounter = s.clock.dividerCounter ∧ t.clock.timerCounter = s.clock.timerCounter) ∧
  (∀ (s : State) (d : Byte) (c : Cycles), Coherent s →
    ∃ t, perform [.wrDiv d, .advance c] s = .next t ∧
      ((c.toNat : Int) < s.clock.dividerCounter → t.clock.dividerRegister = 0x00) ∧
      ((c.toNat : Int) = s.clock.dividerCounter → t.clock.dividerRegister = 0x01)) ∧
  (∀ (s : State) (d : Byte) (c : Cycles), Coherent s → d.getLsbD 2 = true → s.clock.timerRegister ≠ 0xFF →
    ∃ t, perform [.wrTac d, .advance c] s = .next t ∧
      ((c.toNat : Int) < s.clock.timerCounter → t.clock.timerRegister = s.clock.timerRegister) ∧
      ((c.toNat : Int) = s.clock.timerCounter → t.clock.timerRegister = s.clock.timerRegister + 1))

/-- R28: DMA_START (or WR_DMA) alone writes `dma_source`, completion clears it, and it resets to 0. -/
def Obligations.DmaSourceIsWrittenByStartAndCompletion : Prop :=
  (∀ (i : Instr) (s t : State), exec i s = .next t →
    match i with
    | .dmaStart src => t.dma.source = src
    | .wrDma d => t.dma.source = d ++ 0x00#8
    | .advance c =>
      if s.dma.busy = true ∧ s.dma.count < 160 ∧ 160 ≤ s.dma.count + c.toNat then t.dma.source = 0x0000
      else t.dma.source = s.dma.source
    | _ => t.dma.source = s.dma.source) ∧
  (∀ c : ValidConfig, (State.resetWith c).dma.source = 0x0000)

/-- Only POLL writes the button masks, and only WR_JOYP writes the select latch. -/
def Obligations.OnlyPollAndWrJoypWriteJoypadState : Prop :=
  ∀ (i : Instr) (s t : State), exec i s = .next t →
    t.input.current = (match i with | .poll keys => keys | _ => s.input.current) ∧
    t.input.previous = (match i with | .poll keys => keys | _ => s.input.previous) ∧
    t.input.select = (match i with | .wrJoyp d => d.extractLsb' 4 2 | _ => s.input.select)

/-- OAM, the raw reads and the OAM writes change only by an ADVANCE during a transfer. -/
def Obligations.OnlyAdvanceInATransferWritesOam : Prop :=
  ∀ (i : Instr) (s t : State), exec i s = .next t →
    ¬((∃ c : Cycles, i = .advance c ∧ c ≠ 0) ∧ s.dma.busy = true ∧ s.dma.count < 160) →
    t.oam = s.oam ∧ t.record.rawReads = s.record.rawReads ∧ t.record.oamWrites = s.record.oamWrites

/-- No bus read depends on the countdowns, the previous mask or the DMA state (10_state.md section 8). Of a read of the
write-only DMA register, whose byte is any value drawn fresh at each read (R146), this says only that both states yield
one byte: nothing relates the two bytes (log entry 8). -/
def Obligations.BusReadsHideInternalState : Prop :=
  ∀ (s : State) (dc tc : Int) (prev : Byte) (d : DmaState),
    let hidden : State := { s with
      clock := { s.clock with dividerCounter := dc, timerCounter := tc }
      input := { s.input with previous := prev }
      dma := d }
    (∀ i : Instr, i ∈ [.rdJoyp, .rdDiv, .rdTima, .rdTma, .rdTac, .rdIf] →
      ∃ t u, exec i s = .next t ∧ exec i hidden = .next u ∧ t.record.busReads = u.record.busReads) ∧
    (∃ t u v w, exec .rdDma s = .next t ∧ exec .rdDma hidden = .next u ∧
      t.record.busReads = s.record.busReads ++ [v] ∧ u.record.busReads = s.record.busReads ++ [w])

/-- The reset value of every field the spec's reset table gives one, under every configuration, and the bus view with the
defaults. The values are the spec's own decision D17, not the source's (log entry 15). -/
def Obligations.ResetStateHoldsTheTableValues : Prop :=
  (∀ c : ValidConfig,
    (State.resetWith c).clock =
      { dividerCounter := c.divInterval, dividerRegister := 0x00, timerRegister := 0x00,
        timerCounter := c.timerTable.get 0, timerModulo := 0x00, timerEnabled := false, timerSelect := 0b00 } ∧
    (State.resetWith c).dma = { source := 0x0000, count := 0, busy := false } ∧
    (State.resetWith c).requestFlags = 0b00000 ∧
    (State.resetWith c).input = { current := 0x00, previous := 0x00, select := 0b11 } ∧
    (State.resetWith c).fault = none ∧ (State.resetWith c).refused = false) ∧
  (∃ t, perform [.rdDiv, .rdTima, .rdTma, .rdTac, .rdIf, .rdJoyp] State.reset = .next t ∧
    t.record.busReads = State.reset.record.busReads ++ [0x00, 0x00, 0x00, 0xF8, 0xE0, 0xFF])

/-- The reset state is well formed under every configuration (the spec's own inference in R230). Its OAM is in canonical
form and holds a byte at each of the 160 offsets and nowhere else: THE MODEL'S CHOICE of form (log entry 9), since the
spec leaves the reset contents open (R35) and the bytes are free values. -/
def Obligations.ResetStateIsWellFormed : Prop :=
  ∀ c : ValidConfig, WF (State.resetWith c) ∧ (State.resetWith c).oam.wf = true ∧
    ∀ off, (∃ v, (State.resetWith c).oam.read off = some v) ↔ off < 160

/-- Every step from a state that meets the clauses of WF other than the refused mark ends in one, and a step that
presents a legal word keeps WF whole. -/
def Obligations.EveryStepKeepsTheWellFormedState : Prop :=
  (∀ s t : State, Coherent s → step s = .next t → Coherent t) ∧
  (∀ (s t : State) (w : Word) (ws : List Word), WF s → s.commands = w :: ws →
    legalWord s.cfg.toConfig w = true → step s = .next t → WF t)

/-- Every step keeps OAM in canonical form, in every state: no write lands outside offsets 0 to 159. The form is the
model's (log entry 9). -/
def Obligations.EveryStepKeepsOamCanonical : Prop :=
  ∀ s t : State, s.oam.wf = true → step s = .next t → t.oam.wf = true

/-- From a well-formed state no run faults or stops: every list of words is consumed to its end, and the final state
still meets the clauses of WF other than the refused mark. -/
def Obligations.NoRunFromAWellFormedStateFaults : Prop :=
  ∀ (ws : List Word) (s : State), Coherent s → ∃ t, runWords ws s = .next t ∧ Coherent t
end

