-- ==== Sys2Proof/Laws/Config.lean ====
section
/-! SUPPORT. What a valid configuration gives: positive intervals and their relation, distinct addresses, flag
positions below 5. -/

namespace Sys2Proof

theorem ValidConfig.divInterval_pos (c : ValidConfig) : 0 < c.divInterval := by
  have h := c.ok
  simp only [Config.valid, Bool.and_eq_true, decide_eq_true_eq] at h
  exact h.1.1.1.1.1

theorem ValidConfig.timerInterval_pos (c : ValidConfig) (sel : BitVec 2) : 0 < c.timerInterval sel := by
  have h := c.ok
  simp only [Config.valid, Bool.and_eq_true, decide_eq_true_eq] at h
  exact h.1.1.1.1.2 sel.toFin

/-- Some select gives a quarter of the divider's rate: R7's relation between the two rates. -/
theorem ValidConfig.exists_timerInterval_eq (c : ValidConfig) : ∃ sel, c.timerInterval sel = 4 * c.divInterval := by
  have h := c.ok
  simp only [Config.valid, Bool.and_eq_true, decide_eq_true_eq] at h
  obtain ⟨i, hi⟩ := h.2
  exact ⟨BitVec.ofFin i, hi⟩

theorem Config.timerInterval_le_max (c : Config) (sel : BitVec 2) : c.timerInterval sel ≤ c.maxTimerInterval := by
  have h : ∀ j : Fin 4, c.timerTable.get j ≤ c.maxTimerInterval := by
    intro j
    unfold Config.maxTimerInterval
    fin_cases j <;> simp
  exact h sel.toFin

theorem ValidConfig.addresses_nodup (c : ValidConfig) :
    [c.addrJoyp, c.addrDiv, c.addrTima, c.addrTma, c.addrTac, c.addrIf, c.addrDma].Nodup := by
  have h := c.ok
  simp only [Config.valid, Bool.and_eq_true, decide_eq_true_eq] at h
  exact h.1.1.1.2

theorem ValidConfig.vecBit_lt (c : ValidConfig) (f : Flag) : c.vecBit f < 5 := by
  have h := c.ok
  simp only [Config.valid, Bool.and_eq_true, decide_eq_true_eq] at h
  have h2 := h.1.2
  simp only [List.mem_cons, List.not_mem_nil, or_false, forall_eq_or_imp, forall_eq] at h2
  cases f <;> simp [Config.vecBit, h2]

theorem ValidConfig.vecBit_injective (c : ValidConfig) : Function.Injective c.vecBit := by
  have h := c.ok
  simp only [Config.valid, Bool.and_eq_true, decide_eq_true_eq] at h
  have h2 := h.1.1.2
  simp only [List.nodup_cons, List.mem_cons, List.not_mem_nil, or_false, not_or, List.nodup_nil, and_true,
    not_false_eq_true] at h2
  intro f g hfg
  cases f <;> cases g <;> simp_all [Config.vecBit]

theorem ValidConfig.addrOf_injective (c : ValidConfig) : Function.Injective c.addrOf := by
  have h := c.addresses_nodup
  simp only [List.nodup_cons, List.mem_cons, List.not_mem_nil, or_false, not_or, List.nodup_nil, and_true,
    not_false_eq_true] at h
  intro r q hrq
  cases r <;> cases q <;> simp_all [Config.addrOf]

theorem BusReg.mem_all (r : BusReg) : r ∈ BusReg.all := by cases r <;> decide

/-- A register found at an address has that address. -/
theorem Config.addrOf_of_registerAt {c : Config} {a : Addr} {r : BusReg} (h : c.registerAt a = some r) :
    c.addrOf r = a := by
  simpa using List.find?_some h

/-- No register is found at an address exactly when no register has it. -/
theorem Config.registerAt_eq_none_iff (c : Config) (a : Addr) :
    c.registerAt a = none ↔ ∀ r, c.addrOf r ≠ a := by
  unfold Config.registerAt
  rw [List.find?_eq_none]
  simp [BusReg.mem_all]

/-- A register's own address names it (R79). -/
theorem ValidConfig.registerAt_addrOf (c : ValidConfig) (r : BusReg) : c.registerAt (c.addrOf r) = some r := by
  cases h : c.registerAt (c.addrOf r) with
  | none => exact absurd rfl ((Config.registerAt_eq_none_iff _ _).mp h r)
  | some q => rw [c.addrOf_injective (Config.addrOf_of_registerAt h)]

/-- The seven register addresses as R80 (c) lists them. -/
theorem Config.mem_addresses_iff (c : Config) (a : Addr) :
    a ∈ [c.addrJoyp, c.addrDiv, c.addrTima, c.addrTma, c.addrTac, c.addrIf, c.addrDma] ↔
      ∃ r, c.addrOf r = a := by
  constructor
  · intro h
    simp only [List.mem_cons, List.not_mem_nil, or_false] at h
    rcases h with h | h | h | h | h | h | h
    exacts [⟨.joyp, h.symm⟩, ⟨.div, h.symm⟩, ⟨.tima, h.symm⟩, ⟨.tma, h.symm⟩, ⟨.tac, h.symm⟩, ⟨.ifReg, h.symm⟩,
      ⟨.dma, h.symm⟩]
  · rintro ⟨r, rfl⟩
    cases r <;> simp [Config.addrOf]

end Sys2Proof
end

