-- ==== Sys2Proof/Laws/Countdown.lean ====
section
/-! SUPPORT. The remainder-preserving countdown: how often it triggers, where it ends, and that a budget spent in two
parts triggers as often as spent at once. -/

namespace Sys2Proof.Machine

/-- How many iterations the loop of R112 and R113 runs from a counter `d` with interval `i`: the least number that
makes the counter positive. -/
def triggerCount (i : Nat) (d : Int) : Nat := if d ≤ 0 then ((-d) / i).toNat + 1 else 0

theorem triggerCount_pos {i : Nat} {d : Int} (h : 0 < d) : triggerCount i d = 0 := by
  simp [triggerCount, not_le.mpr h]

/-- One iteration from a counter that is not positive. -/
theorem triggerCount_step {i : Nat} (hi : 0 < i) {d : Int} (h : d ≤ 0) :
    triggerCount i d = triggerCount i (d + i) + 1 := by
  have hi' : (0 : Int) < i := by exact_mod_cast hi
  unfold triggerCount
  rw [if_pos h]
  split_ifs with h2
  · have : (-d) / (i : Int) = (-(d + i)) / i + 1 := by
      rw [← Int.add_mul_ediv_right _ _ (ne_of_gt hi')]
      congr 1; ring
    have h3 : 0 ≤ (-(d + i)) / (i : Int) := Int.ediv_nonneg (by omega) hi'.le
    omega
  · have : (-d) / (i : Int) = 0 := Int.ediv_eq_zero_of_lt (by omega) (by omega)
    simp [this]

/-- The counter ends in 1..i when it started at or below 0. -/
theorem triggerCount_bounds {i : Nat} (hi : 0 < i) {d : Int} (h : d ≤ 0) :
    1 ≤ d + triggerCount i d * i ∧ d + triggerCount i d * i ≤ i := by
  have hi' : (0 : Int) < i := by exact_mod_cast hi
  have h0 : 0 ≤ (-d) / (i : Int) := Int.ediv_nonneg (by omega) hi'.le
  have h1 := Int.mul_ediv_add_emod (-d) i
  have h2 := Int.emod_nonneg (-d) (ne_of_gt hi')
  have h3 := Int.emod_lt_of_pos (-d) hi'
  have hk : ((triggerCount i d : Nat) : Int) = (-d) / (i : Int) + 1 := by
    unfold triggerCount; rw [if_pos h]; push_cast; omega
  rw [hk]
  have : ((-d) / (i : Int) + 1) * i = i * ((-d) / i) + i := by ring
  constructor <;> omega

/-- The counter ends positive. -/
theorem triggerCount_end_pos {i : Nat} (hi : 0 < i) (d : Int) : 1 ≤ d + triggerCount i d * i := by
  by_cases h : d ≤ 0
  · exact (triggerCount_bounds hi h).1
  · rw [triggerCount_pos (by omega)]; simp; omega

/-- The count is the one that leaves the counter in 1..i. -/
theorem triggerCount_unique {i : Nat} (hi : 0 < i) {d : Int} (h : d ≤ 0) {k : Nat}
    (h1 : 1 ≤ d + k * i) (h2 : d + k * i ≤ i) : triggerCount i d = k := by
  obtain ⟨b1, b2⟩ := triggerCount_bounds hi h
  have hi' : (0 : Int) < i := by exact_mod_cast hi
  rcases lt_trichotomy (triggerCount i d) k with hlt | heq | hgt
  · have : ((triggerCount i d : Nat) : Int) + 1 ≤ k := by exact_mod_cast hlt
    nlinarith
  · exact heq
  · have : ((k : Nat) : Int) + 1 ≤ triggerCount i d := by exact_mod_cast hgt
    nlinarith

/-- Chunking: a further budget `b` adds the triggers it causes from where the counter stood (R116). -/
theorem triggerCount_add {i : Nat} (hi : 0 < i) (d : Int) {b : Int} (hb : 0 ≤ b) :
    triggerCount i (d - b) = triggerCount i d + triggerCount i (d + triggerCount i d * i - b) := by
  by_cases h : d - b ≤ 0
  · have e1 := triggerCount_end_pos hi d
    by_cases h2 : d + triggerCount i d * i - b ≤ 0
    · obtain ⟨b1, b2⟩ := triggerCount_bounds hi h2
      refine triggerCount_unique hi h ?_ ?_ <;> push_cast <;> linarith
    · rw [triggerCount_pos (i := i) (d := d + triggerCount i d * i - b) (by omega), Nat.add_zero]
      by_cases hd : d ≤ 0
      · obtain ⟨b1, b2⟩ := triggerCount_bounds hi hd
        exact triggerCount_unique hi h (by omega) (by omega)
      · rw [triggerCount_pos (by omega)] at h2
        simp at h2; omega
  · have hd : 0 < d := by omega
    rw [triggerCount_pos hd, triggerCount_pos (by omega)]
    simp only [Nat.cast_zero, zero_mul, add_zero]
    rw [triggerCount_pos (by omega)]

/-- With enough fuel the loop runs `triggerCount` times. -/
theorem countdownLoop_eq {i : Nat} (hi : 0 < i) (f : State → State) :
    ∀ (fuel : Nat) (d : Int) (s : State), 1 - d ≤ fuel →
      countdownLoop i f fuel d s = (d + triggerCount i d * i, f^[triggerCount i d] s)
  | 0, d, s, h => by
    rw [triggerCount_pos (by omega)]
    simp [countdownLoop]
  | fuel + 1, d, s, h => by
    unfold countdownLoop
    split_ifs with hd
    · rw [countdownLoop_eq hi f fuel _ _ (by push_cast at h; omega), triggerCount_step hi hd,
        Function.iterate_succ_apply]
      congr 1
      push_cast; ring
    · rw [triggerCount_pos (by omega)]
      simp

/-- Everything the countdown does: it triggers `triggerCount` times and keeps the remainder. -/
theorem countdown_eq {i : Nat} (hi : 0 < i) (f : State → State) (d : Int) (s : State) :
    countdown i f d s = (d + triggerCount i d * i, f^[triggerCount i d] s) :=
  countdownLoop_eq hi f _ d s (Int.self_le_toNat _)

end Sys2Proof.Machine
end

