-- ==== Sys2Proof/Laws/State.lean ====
section
/-! SUPPORT. One lemma per part of State per update of Machine/Ops.lean, and updates of one part absorbing each other. -/

namespace Sys2Proof.Machine

variable (s : State)

@[simp] theorem State.setCommands_cfg (x : List Word) : (s.setCommands x).cfg = s.cfg := rfl
@[simp] theorem State.setCommands_commands (x : List Word) : (s.setCommands x).commands = x := rfl
@[simp] theorem State.setCommands_clock (x : List Word) : (s.setCommands x).clock = s.clock := rfl
@[simp] theorem State.setCommands_dma (x : List Word) : (s.setCommands x).dma = s.dma := rfl
@[simp] theorem State.setCommands_requestFlags (x : List Word) : (s.setCommands x).requestFlags = s.requestFlags := rfl
@[simp] theorem State.setCommands_input (x : List Word) : (s.setCommands x).input = s.input := rfl
@[simp] theorem State.setCommands_oam (x : List Word) : (s.setCommands x).oam = s.oam := rfl
@[simp] theorem State.setCommands_fault (x : List Word) : (s.setCommands x).fault = s.fault := rfl
@[simp] theorem State.setCommands_refused (x : List Word) : (s.setCommands x).refused = s.refused := rfl
@[simp] theorem State.setCommands_record (x : List Word) : (s.setCommands x).record = s.record := rfl

@[simp] theorem State.setClock_cfg (x : ClockState) : (s.setClock x).cfg = s.cfg := rfl
@[simp] theorem State.setClock_commands (x : ClockState) : (s.setClock x).commands = s.commands := rfl
@[simp] theorem State.setClock_clock (x : ClockState) : (s.setClock x).clock = x := rfl
@[simp] theorem State.setClock_dma (x : ClockState) : (s.setClock x).dma = s.dma := rfl
@[simp] theorem State.setClock_requestFlags (x : ClockState) : (s.setClock x).requestFlags = s.requestFlags := rfl
@[simp] theorem State.setClock_input (x : ClockState) : (s.setClock x).input = s.input := rfl
@[simp] theorem State.setClock_oam (x : ClockState) : (s.setClock x).oam = s.oam := rfl
@[simp] theorem State.setClock_fault (x : ClockState) : (s.setClock x).fault = s.fault := rfl
@[simp] theorem State.setClock_refused (x : ClockState) : (s.setClock x).refused = s.refused := rfl
@[simp] theorem State.setClock_record (x : ClockState) : (s.setClock x).record = s.record := rfl

@[simp] theorem State.setDma_cfg (x : DmaState) : (s.setDma x).cfg = s.cfg := rfl
@[simp] theorem State.setDma_commands (x : DmaState) : (s.setDma x).commands = s.commands := rfl
@[simp] theorem State.setDma_clock (x : DmaState) : (s.setDma x).clock = s.clock := rfl
@[simp] theorem State.setDma_dma (x : DmaState) : (s.setDma x).dma = x := rfl
@[simp] theorem State.setDma_requestFlags (x : DmaState) : (s.setDma x).requestFlags = s.requestFlags := rfl
@[simp] theorem State.setDma_input (x : DmaState) : (s.setDma x).input = s.input := rfl
@[simp] theorem State.setDma_oam (x : DmaState) : (s.setDma x).oam = s.oam := rfl
@[simp] theorem State.setDma_fault (x : DmaState) : (s.setDma x).fault = s.fault := rfl
@[simp] theorem State.setDma_refused (x : DmaState) : (s.setDma x).refused = s.refused := rfl
@[simp] theorem State.setDma_record (x : DmaState) : (s.setDma x).record = s.record := rfl

@[simp] theorem State.setFlags_cfg (x : Flags) : (s.setFlags x).cfg = s.cfg := rfl
@[simp] theorem State.setFlags_commands (x : Flags) : (s.setFlags x).commands = s.commands := rfl
@[simp] theorem State.setFlags_clock (x : Flags) : (s.setFlags x).clock = s.clock := rfl
@[simp] theorem State.setFlags_dma (x : Flags) : (s.setFlags x).dma = s.dma := rfl
@[simp] theorem State.setFlags_requestFlags (x : Flags) : (s.setFlags x).requestFlags = x := rfl
@[simp] theorem State.setFlags_input (x : Flags) : (s.setFlags x).input = s.input := rfl
@[simp] theorem State.setFlags_oam (x : Flags) : (s.setFlags x).oam = s.oam := rfl
@[simp] theorem State.setFlags_fault (x : Flags) : (s.setFlags x).fault = s.fault := rfl
@[simp] theorem State.setFlags_refused (x : Flags) : (s.setFlags x).refused = s.refused := rfl
@[simp] theorem State.setFlags_record (x : Flags) : (s.setFlags x).record = s.record := rfl

@[simp] theorem State.setInput_cfg (x : InputState) : (s.setInput x).cfg = s.cfg := rfl
@[simp] theorem State.setInput_commands (x : InputState) : (s.setInput x).commands = s.commands := rfl
@[simp] theorem State.setInput_clock (x : InputState) : (s.setInput x).clock = s.clock := rfl
@[simp] theorem State.setInput_dma (x : InputState) : (s.setInput x).dma = s.dma := rfl
@[simp] theorem State.setInput_requestFlags (x : InputState) : (s.setInput x).requestFlags = s.requestFlags := rfl
@[simp] theorem State.setInput_input (x : InputState) : (s.setInput x).input = x := rfl
@[simp] theorem State.setInput_oam (x : InputState) : (s.setInput x).oam = s.oam := rfl
@[simp] theorem State.setInput_fault (x : InputState) : (s.setInput x).fault = s.fault := rfl
@[simp] theorem State.setInput_refused (x : InputState) : (s.setInput x).refused = s.refused := rfl
@[simp] theorem State.setInput_record (x : InputState) : (s.setInput x).record = s.record := rfl

@[simp] theorem State.setOam_cfg (x : Memory) : (s.setOam x).cfg = s.cfg := rfl
@[simp] theorem State.setOam_commands (x : Memory) : (s.setOam x).commands = s.commands := rfl
@[simp] theorem State.setOam_clock (x : Memory) : (s.setOam x).clock = s.clock := rfl
@[simp] theorem State.setOam_dma (x : Memory) : (s.setOam x).dma = s.dma := rfl
@[simp] theorem State.setOam_requestFlags (x : Memory) : (s.setOam x).requestFlags = s.requestFlags := rfl
@[simp] theorem State.setOam_input (x : Memory) : (s.setOam x).input = s.input := rfl
@[simp] theorem State.setOam_oam (x : Memory) : (s.setOam x).oam = x := rfl
@[simp] theorem State.setOam_fault (x : Memory) : (s.setOam x).fault = s.fault := rfl
@[simp] theorem State.setOam_refused (x : Memory) : (s.setOam x).refused = s.refused := rfl
@[simp] theorem State.setOam_record (x : Memory) : (s.setOam x).record = s.record := rfl

@[simp] theorem State.setRecord_cfg (x : Record) : (s.setRecord x).cfg = s.cfg := rfl
@[simp] theorem State.setRecord_commands (x : Record) : (s.setRecord x).commands = s.commands := rfl
@[simp] theorem State.setRecord_clock (x : Record) : (s.setRecord x).clock = s.clock := rfl
@[simp] theorem State.setRecord_dma (x : Record) : (s.setRecord x).dma = s.dma := rfl
@[simp] theorem State.setRecord_requestFlags (x : Record) : (s.setRecord x).requestFlags = s.requestFlags := rfl
@[simp] theorem State.setRecord_input (x : Record) : (s.setRecord x).input = s.input := rfl
@[simp] theorem State.setRecord_oam (x : Record) : (s.setRecord x).oam = s.oam := rfl
@[simp] theorem State.setRecord_fault (x : Record) : (s.setRecord x).fault = s.fault := rfl
@[simp] theorem State.setRecord_refused (x : Record) : (s.setRecord x).refused = s.refused := rfl
@[simp] theorem State.setRecord_record (x : Record) : (s.setRecord x).record = x := rfl

@[simp] theorem State.raise_cfg (x : Fault) : (s.raise x).cfg = s.cfg := rfl
@[simp] theorem State.raise_commands (x : Fault) : (s.raise x).commands = s.commands := rfl
@[simp] theorem State.raise_clock (x : Fault) : (s.raise x).clock = s.clock := rfl
@[simp] theorem State.raise_dma (x : Fault) : (s.raise x).dma = s.dma := rfl
@[simp] theorem State.raise_requestFlags (x : Fault) : (s.raise x).requestFlags = s.requestFlags := rfl
@[simp] theorem State.raise_input (x : Fault) : (s.raise x).input = s.input := rfl
@[simp] theorem State.raise_oam (x : Fault) : (s.raise x).oam = s.oam := rfl
@[simp] theorem State.raise_fault (x : Fault) : (s.raise x).fault = some x := rfl
@[simp] theorem State.raise_refused (x : Fault) : (s.raise x).refused = s.refused := rfl
@[simp] theorem State.raise_record (x : Fault) : (s.raise x).record = s.record := rfl

@[simp] theorem State.refuse_cfg : (s.refuse).cfg = s.cfg := rfl
@[simp] theorem State.refuse_commands : (s.refuse).commands = s.commands := rfl
@[simp] theorem State.refuse_clock : (s.refuse).clock = s.clock := rfl
@[simp] theorem State.refuse_dma : (s.refuse).dma = s.dma := rfl
@[simp] theorem State.refuse_requestFlags : (s.refuse).requestFlags = s.requestFlags := rfl
@[simp] theorem State.refuse_input : (s.refuse).input = s.input := rfl
@[simp] theorem State.refuse_oam : (s.refuse).oam = s.oam := rfl
@[simp] theorem State.refuse_fault : (s.refuse).fault = s.fault := rfl
@[simp] theorem State.refuse_refused : (s.refuse).refused = true := rfl
@[simp] theorem State.refuse_record : (s.refuse).record = s.record := rfl

@[simp] theorem State.setCommands_setCommands (x y : List Word) : (s.setCommands x).setCommands y = s.setCommands y := rfl
@[simp] theorem State.setCommands_self : s.setCommands s.commands = s := rfl
@[simp] theorem State.setClock_setClock (x y : ClockState) : (s.setClock x).setClock y = s.setClock y := rfl
@[simp] theorem State.setClock_self : s.setClock s.clock = s := rfl
@[simp] theorem State.setDma_setDma (x y : DmaState) : (s.setDma x).setDma y = s.setDma y := rfl
@[simp] theorem State.setDma_self : s.setDma s.dma = s := rfl
@[simp] theorem State.setFlags_setFlags (x y : Flags) : (s.setFlags x).setFlags y = s.setFlags y := rfl
@[simp] theorem State.setFlags_self : s.setFlags s.requestFlags = s := rfl
@[simp] theorem State.setInput_setInput (x y : InputState) : (s.setInput x).setInput y = s.setInput y := rfl
@[simp] theorem State.setInput_self : s.setInput s.input = s := rfl
@[simp] theorem State.setOam_setOam (x y : Memory) : (s.setOam x).setOam y = s.setOam y := rfl
@[simp] theorem State.setOam_self : s.setOam s.oam = s := rfl
@[simp] theorem State.setRecord_setRecord (x y : Record) : (s.setRecord x).setRecord y = s.setRecord y := rfl
@[simp] theorem State.setRecord_self : s.setRecord s.record = s := rfl

/-- A yielded bus-read result touches the record alone. -/
theorem State.yield_eq (v : Byte) :
    s.yield v = s.setRecord { s.record with busReads := s.record.busReads ++ [v] } := rfl

end Sys2Proof.Machine
end

