-- ==== Sys2Proof/Laws/Clock.lean ====
section
/-! SUPPORT. What the clock half of ADVANCE does: the divider in closed form, and what timer ticks touch. -/

namespace Sys2Proof.Machine

theorem dividerTick_iterate (k : Nat) (s : State) :
    dividerTick^[k] s =
      s.setClock { s.clock with dividerRegister := s.clock.dividerRegister + BitVec.ofNat 8 k } := by
  induction k generalizing s with
  | zero => simp only [Function.iterate_zero, id_eq, BitVec.add_zero]; rfl
  | succ k ih =>
    rw [Function.iterate_succ_apply, ih]
    simp only [dividerTick, State.setClock_clock, State.setClock_setClock, BitVec.ofNat_add]
    congr 2
    rw [BitVec.add_assoc, BitVec.add_comm 1]
    rfl

/-- Everything `DividerStep` does. -/
theorem dividerStep_eq (c : Int) (s : State) :
    dividerStep c s =
      s.setClock { s.clock with
        dividerCounter := s.clock.dividerCounter - c +
          triggerCount s.cfg.divInterval (s.clock.dividerCounter - c) * s.cfg.divInterval
        dividerRegister := s.clock.dividerRegister +
          BitVec.ofNat 8 (triggerCount s.cfg.divInterval (s.clock.dividerCounter - c)) } := by
  simp only [dividerStep, countdown_eq s.cfg.divInterval_pos, dividerTick_iterate, State.setClock_clock,
    State.setClock_setClock]

/-- A timer tick touches TIMA and the request flags alone. -/
theorem timerTick_eq (s : State) :
    timerTick s =
      (s.setClock { s.clock with timerRegister := (timerTick s).clock.timerRegister }).setFlags
        (timerTick s).requestFlags := by
  unfold timerTick request
  split_ifs <;> rfl

/-- A tick leaves the flags, or requests TIMER. -/
theorem timerTick_flags (s : State) :
    (timerTick s).requestFlags =
      if s.clock.timerRegister = 0xFF then s.requestFlags ||| flagMask s.cfg.toConfig .timer
      else s.requestFlags := by
  unfold timerTick
  split_ifs <;> rfl

theorem timerTick_register (s : State) :
    (timerTick s).clock.timerRegister =
      if s.clock.timerRegister = 0xFF then s.clock.timerModulo else s.clock.timerRegister + 1 := by
  unfold timerTick
  split_ifs <;> rfl

/-- Any number of ticks touches TIMA and the request flags alone. -/
theorem timerTick_iterate_eq (k : Nat) (s : State) :
    timerTick^[k] s =
      (s.setClock { s.clock with timerRegister := (timerTick^[k] s).clock.timerRegister }).setFlags
        (timerTick^[k] s).requestFlags := by
  induction k generalizing s with
  | zero => rfl
  | succ k ih =>
    rw [Function.iterate_succ_apply, ih, timerTick_eq]
    rfl

/-- Any number of ticks leaves the flags, or requests TIMER. -/
theorem timerTick_iterate_flags (k : Nat) (s : State) :
    (timerTick^[k] s).requestFlags = s.requestFlags ∨
      (timerTick^[k] s).requestFlags = s.requestFlags ||| flagMask s.cfg.toConfig .timer := by
  induction k generalizing s with
  | zero => exact .inl rfl
  | succ k ih =>
    rw [Function.iterate_succ_apply]
    have hc : (timerTick s).cfg = s.cfg := by rw [timerTick_eq]; rfl
    have hf := timerTick_flags s
    rcases ih (timerTick s) with h | h <;> rw [h] <;> try rw [hc]
    · rw [hf]; split_ifs <;> simp
    · right; rw [hf]; split_ifs
      · rw [BitVec.or_assoc, BitVec.or_self]
      · rfl

/-- How often an enabled timer ticks on a budget. -/
def timerTicks (c : Int) (s : State) : Nat :=
  triggerCount (s.cfg.timerInterval s.clock.timerSelect) (s.clock.timerCounter - c)

/-- Everything `TimerStep` does, in terms of the state after its ticks. -/
theorem timerStep_eq (c : Int) (s : State) :
    timerStep c s =
      if s.clock.timerEnabled then
        (s.setClock { s.clock with
          timerCounter := s.clock.timerCounter - c +
            timerTicks c s * s.cfg.timerInterval s.clock.timerSelect
          timerRegister := (timerTick^[timerTicks c s] s).clock.timerRegister }).setFlags
            (timerTick^[timerTicks c s] s).requestFlags
      else s := by
  unfold timerStep
  split_ifs
  · simp only [countdown_eq (s.cfg.timerInterval_pos _)]
    rw [← timerTicks, timerTick_iterate_eq]
    rfl
  · rfl

/-- A budget that is not negative runs the divider and then the timer (R110). -/
theorem clockAdvance_eq {c : Int} (hc : 0 ≤ c) (s : State) : clockAdvance c s = timerStep c (dividerStep c s) := by
  simp [clockAdvance, not_lt.mpr hc]

/-- The clock half touches the clock and the request flags alone. -/
theorem clockAdvance_frame {c : Int} (hc : 0 ≤ c) (s : State) :
    clockAdvance c s = (s.setClock (clockAdvance c s).clock).setFlags (clockAdvance c s).requestFlags := by
  rw [clockAdvance_eq hc, timerStep_eq, dividerStep_eq]
  split_ifs <;> rfl

end Sys2Proof.Machine
end

