-- ==== Sys2Proof/Laws/Memory.lean ====
section
/-! SUPPORT. OAM storage: a read after a write, the canonical form (Memory.wf) kept by every operation, and that
canonical OAMs holding the same bytes are the same data. -/

namespace Sys2Proof.Machine

/-! What an operation on cells does to the cell listed at an offset. -/

theorem Memory.listed_cons (a : Nat) (b : Byte) (m : Memory) (x : Nat) :
    Memory.listed ((a, b) :: m) x = if a = x then some b else m.listed x := rfl

theorem Memory.listed_filter (m : Memory) (off x : Nat) :
    Memory.listed (m.filter fun c => c.1 != off) x = if x = off then none else m.listed x := by
  induction m with
  | nil => simp [Memory.listed]
  | cons c m ih =>
    obtain ⟨a, b⟩ := c
    by_cases ha : a = off
    · subst ha
      simp only [List.filter_cons, bne_self_eq_false, Bool.false_eq_true, if_false, ih, Memory.listed]
      split_ifs with h1 h2 <;> simp_all
    · simp only [List.filter_cons, bne_iff_ne, ne_eq, ha, not_false_eq_true, if_true, Memory.listed, ih]
      split_ifs with h1 h2 <;> simp_all

theorem Memory.listed_insert {m : Memory} {off : Nat} (v : Byte) (h : m.listed off = none) (x : Nat) :
    (Memory.insert off v m).listed x = if x = off then some v else m.listed x := by
  induction m with
  | nil => simp [Memory.insert, Memory.listed, eq_comm]
  | cons c m ih =>
    obtain ⟨a, b⟩ := c
    have ha : a ≠ off := fun e => by simp [Memory.listed, e] at h
    have hm : Memory.listed m off = none := by simpa [Memory.listed, ha] using h
    unfold Memory.insert
    by_cases h1 : off < a
    · rw [if_pos h1, Memory.listed_cons]
      simp only [eq_comm (a := off)]
    · rw [if_neg h1, Memory.listed_cons, Memory.listed_cons, ih hm]
      by_cases hax : a = x
      · rw [if_pos hax, if_pos hax, if_neg (by omega)]
      · rw [if_neg hax, if_neg hax]

/-- Everything a write does to what an offset of OAM holds. -/
theorem Memory.read_write (m : Memory) (off : Nat) (v : Byte) (x : Nat) :
    (m.write off v).read x = if x = off ∧ x < dmaLength then some v else m.read x := by
  have h0 : Memory.listed (m.filter fun c => c.1 != off) off = none := by simp [Memory.listed_filter]
  unfold Memory.read Memory.write
  by_cases hx : x < dmaLength
  · by_cases hv : v = Config.oamByte off
    · simp only [hv, if_true, Memory.listed_filter]
      split_ifs <;> simp_all
    · simp only [hv, if_false, Memory.listed_insert v h0, Memory.listed_filter]
      split_ifs <;> simp_all
  · simp [hx]

@[simp] theorem Memory.read_write_same (m : Memory) {off : Nat} (h : off < dmaLength) (v : Byte) :
    (m.write off v).read off = some v := by
  simp [Memory.read_write, h]

theorem Memory.read_write_other (m : Memory) {off x : Nat} (v : Byte) (h : x ≠ off) :
    (m.write off v).read x = m.read x := by
  simp [Memory.read_write, h]

/-- OAM has a byte at each of its 160 offsets and nowhere else. -/
theorem Memory.read_isSome_iff (m : Memory) (off : Nat) : (m.read off).isSome = true ↔ off < dmaLength := by
  unfold Memory.read
  split_ifs with h <;> simp [h]

/-! The canonical form. -/

theorem Memory.wfFrom_cons {lo a : Nat} {v : Byte} {m : Memory} :
    Memory.wfFrom lo ((a, v) :: m) = true ↔
      lo ≤ a ∧ a < dmaLength ∧ Memory.wfFrom (a + 1) m = true ∧ v ≠ Config.oamByte a := by
  simp only [Memory.wfFrom, Bool.and_eq_true, decide_eq_true_eq, and_assoc]

theorem Memory.wfFrom_mono {lo lo' : Nat} (h : lo' ≤ lo) :
    ∀ {m : Memory}, Memory.wfFrom lo m = true → Memory.wfFrom lo' m = true
  | [], _ => rfl
  | (_, _) :: _, hm => by
    rw [Memory.wfFrom_cons] at hm ⊢
    exact ⟨h.trans hm.1, hm.2⟩

theorem Memory.wfFrom_filter (p : Host.Cell → Bool) :
    ∀ {lo : Nat} {m : Memory}, Memory.wfFrom lo m = true → Memory.wfFrom lo (m.filter p) = true
  | _, [], _ => rfl
  | lo, (a, v) :: m, hm => by
    obtain ⟨h1, h2, h3, h4⟩ := Memory.wfFrom_cons.mp hm
    have ih := Memory.wfFrom_filter p h3
    rw [List.filter_cons]
    split_ifs
    · exact Memory.wfFrom_cons.mpr ⟨h1, h2, ih, h4⟩
    · exact Memory.wfFrom_mono (by omega) ih

theorem Memory.wfFrom_insert {off : Nat} {v : Byte} (hoff : off < dmaLength) (hv : v ≠ Config.oamByte off) :
    ∀ {lo : Nat} {m : Memory}, lo ≤ off → m.listed off = none → Memory.wfFrom lo m = true →
      Memory.wfFrom lo (Memory.insert off v m) = true
  | lo, [], hlo, _, _ => Memory.wfFrom_cons.mpr ⟨hlo, hoff, rfl, hv⟩
  | lo, (a, b) :: m, hlo, hn, hm => by
    obtain ⟨h1, h2, h3, h4⟩ := Memory.wfFrom_cons.mp hm
    have ha : a ≠ off := fun e => by simp [Memory.listed, e] at hn
    unfold Memory.insert
    split_ifs with h
    · exact Memory.wfFrom_cons.mpr ⟨hlo, hoff, Memory.wfFrom_cons.mpr ⟨h, h2, h3, h4⟩, hv⟩
    · exact Memory.wfFrom_cons.mpr
        ⟨h1, h2, Memory.wfFrom_insert hoff hv (by omega) (by simpa [Memory.listed, ha] using hn) h3, h4⟩

/-- A write inside OAM keeps the canonical form. -/
theorem Memory.write_wf {m : Memory} (hm : m.wf = true) {off : Nat} (hoff : off < dmaLength) (v : Byte) :
    (m.write off v).wf = true := by
  unfold Memory.write
  by_cases hv : v = Config.oamByte off
  · simp only [hv, if_true]
    exact Memory.wfFrom_filter _ hm
  · simp only [hv, if_false]
    exact Memory.wfFrom_insert hoff hv (Nat.zero_le _) (by simp [Memory.listed_filter]) (Memory.wfFrom_filter _ hm)

/-- A canonical list lists nothing below its bound. -/
theorem Memory.listed_eq_none {x : Nat} :
    ∀ {lo : Nat} {m : Memory}, Memory.wfFrom lo m = true → x < lo → m.listed x = none
  | _, [], _, _ => rfl
  | _, (a, _) :: _, hm, hx => by
    obtain ⟨h1, -, h3, -⟩ := Memory.wfFrom_cons.mp hm
    have : a ≠ x := by omega
    simp [Memory.listed, this, Memory.listed_eq_none h3 (show x < a + 1 by omega)]

/-- A byte a canonical list lists is not the one an unlisted offset holds. -/
theorem Memory.listed_ne_oamByte {x : Nat} {v : Byte} :
    ∀ {lo : Nat} {m : Memory}, Memory.wfFrom lo m = true → m.listed x = some v →
      v ≠ Config.oamByte x ∧ x < dmaLength
  | _, [], _, h => by simp [Memory.listed] at h
  | _, (a, b) :: m, hm, h => by
    obtain ⟨-, h2, h3, h4⟩ := Memory.wfFrom_cons.mp hm
    by_cases ha : a = x
    · subst ha
      simp only [Memory.listed, if_true, Option.some.injEq] at h
      subst h; exact ⟨h4, h2⟩
    · exact Memory.listed_ne_oamByte h3 (by simpa [Memory.listed, ha] using h)

/-- Canonical lists that list the same bytes are equal. -/
theorem Memory.eq_of_listed_eq :
    ∀ {lo : Nat} {m m' : Memory}, Memory.wfFrom lo m = true → Memory.wfFrom lo m' = true →
      (∀ x, m.listed x = m'.listed x) → m = m'
  | _, [], [], _, _, _ => rfl
  | _, [], (a, b) :: m', _, _, h => by have := h a; simp [Memory.listed] at this
  | _, (a, b) :: m, [], _, _, h => by have := h a; simp [Memory.listed] at this
  | _, (a, b) :: m, (a', b') :: m', hm, hm', h => by
    obtain ⟨-, -, h3, -⟩ := Memory.wfFrom_cons.mp hm
    obtain ⟨-, -, h3', -⟩ := Memory.wfFrom_cons.mp hm'
    have haa : a = a' := by
      rcases Nat.lt_trichotomy a a' with hlt | heq | hgt
      · have := h a
        rw [Memory.listed, if_pos rfl, Memory.listed, if_neg (by omega),
          Memory.listed_eq_none h3' (by omega)] at this
        cases this
      · exact heq
      · have := h a'
        rw [Memory.listed, if_neg (by omega), Memory.listed, if_pos rfl,
          Memory.listed_eq_none h3 (by omega)] at this
        cases this
    subst haa
    have hb : b = b' := by simpa [Memory.listed] using h a
    subst hb
    rw [Memory.eq_of_listed_eq h3 h3' fun x => ?_]
    by_cases hx : x < a + 1
    · rw [Memory.listed_eq_none h3 hx, Memory.listed_eq_none h3' hx]
    · have := h x
      rwa [Memory.listed, if_neg (by omega), Memory.listed, if_neg (by omega)] at this

/-- Canonical OAMs that hold the same bytes are the same data. -/
theorem Memory.eq_of_read_eq {m m' : Memory} (hm : m.wf = true) (hm' : m'.wf = true)
    (h : ∀ off, m.read off = m'.read off) : m = m' := by
  refine Memory.eq_of_listed_eq hm hm' fun x => ?_
  have hx := h x
  unfold Memory.read at hx
  cases hl : m.listed x with
  | none =>
    cases hl' : m'.listed x with
    | none => rfl
    | some v' =>
      obtain ⟨hne, hlt⟩ := Memory.listed_ne_oamByte hm' hl'
      simp [hl, hl', hlt] at hx
      exact absurd hx.symm hne
  | some v =>
    obtain ⟨hne, hlt⟩ := Memory.listed_ne_oamByte hm hl
    cases hl' : m'.listed x with
    | none =>
      simp [hl, hl', hlt] at hx
      exact absurd hx hne
    | some v' => simpa [hl, hl', hlt] using hx

/-- The reset state's OAM is canonical: it lists nothing, so every offset holds its free byte. -/
theorem State.reset_oam_wf : State.reset.oam.wf = true := rfl

end Sys2Proof.Machine
end

