-- ==== Sys2Proof/Laws/Dma.lean ====
section
/-! SUPPORT. What the DMA half of ADVANCE does: how many bytes it copies, when it completes, and what it touches. -/

namespace Sys2Proof.Machine

/-- One copied byte touches the count, OAM and the record alone. -/
theorem dmaCopy_eq (s : State) :
    dmaCopy s =
      ((s.setDma { s.dma with count := s.dma.count + 1 }).setOam
        (Memory.write s.oam s.dma.count (rawAnswer s (dmaReadAddr s.dma)))).setRecord
          { s.record with
            rawReads := s.record.rawReads ++
              [((dmaReadAddr s.dma).toNat, rawAnswer s (dmaReadAddr s.dma))]
            oamWrites := s.record.oamWrites ++ [(s.dma.count, rawAnswer s (dmaReadAddr s.dma))] } := rfl

@[simp] theorem dmaCopy_count (s : State) : (dmaCopy s).dma.count = s.dma.count + 1 := rfl
@[simp] theorem dmaCopy_source (s : State) : (dmaCopy s).dma.source = s.dma.source := rfl
@[simp] theorem dmaCopy_busy (s : State) : (dmaCopy s).dma.busy = s.dma.busy := rfl

@[simp] theorem dmaCopy_iterate_dma (k : Nat) (s : State) :
    (dmaCopy^[k] s).dma = { s.dma with count := s.dma.count + k } := by
  induction k generalizing s with
  | zero => rfl
  | succ k ih =>
    rw [Function.iterate_succ_apply, ih, dmaCopy_eq]
    simp only [State.setRecord_dma, State.setOam_dma, State.setDma_dma]
    rw [Nat.add_right_comm, Nat.add_assoc]

/-- Any number of copies touches the count, OAM and the record alone. -/
theorem dmaCopy_iterate_frame (k : Nat) (s : State) :
    dmaCopy^[k] s =
      ((s.setDma { s.dma with count := s.dma.count + k }).setOam (dmaCopy^[k] s).oam).setRecord
        (dmaCopy^[k] s).record := by
  induction k generalizing s with
  | zero => rfl
  | succ k ih =>
    have hd : (dmaCopy^[k + 1] s).dma = { s.dma with count := s.dma.count + (k + 1) } :=
      dmaCopy_iterate_dma (k + 1) s
    rw [Function.iterate_succ_apply] at hd ⊢
    rw [ih] at hd ⊢
    simp only [State.setRecord_dma, State.setOam_dma, State.setDma_dma] at hd
    rw [hd, dmaCopy_eq]
    rfl

/-- Everything the DMA loop does from a count inside the transfer: it copies a byte per unit, and completes on the
unit that brings the count to 160 (R141, R148). -/
theorem dmaLoop_eq : ∀ (n : Nat) (s : State), s.dma.count < dmaLength →
    dmaLoop n s =
      if n < dmaLength - s.dma.count then dmaCopy^[n] s
      else dmaComplete (dmaCopy^[dmaLength - s.dma.count] s)
  | 0, s, h => by
    rw [if_pos (by omega)]; rfl
  | n + 1, s, h => by
    unfold dmaLoop
    rw [if_neg (by omega)]
    split_ifs with h1 h2 h3
    · rw [dmaCopy_count] at h1; omega
    · have : dmaLength - s.dma.count = 1 := by rw [dmaCopy_count] at h1; omega
      rw [this]; rfl
    · rw [dmaCopy_count] at h1
      rw [dmaLoop_eq n (dmaCopy s) (by rw [dmaCopy_count]; omega), if_pos (by rw [dmaCopy_count]; omega),
        Function.iterate_succ_apply]
    · rw [dmaCopy_count] at h1
      rw [dmaLoop_eq n (dmaCopy s) (by rw [dmaCopy_count]; omega), if_neg (by rw [dmaCopy_count]; omega),
        dmaCopy_count, ← Function.iterate_succ_apply]
      congr 3; omega

/-- From a count outside the transfer the first unit faults (R141, R200). -/
theorem dmaLoop_fault (n : Nat) (s : State) (h : dmaLength ≤ s.dma.count) :
    dmaLoop (n + 1) s = s.raise (.dmaCountRange s.dma.count) := by
  unfold dmaLoop
  rw [if_pos h]

/-- A budget that is not negative runs the loop while busy and does nothing while idle (R141, R143). -/
theorem dmaAdvance_eq {c : Int} (hc : 0 ≤ c) (s : State) :
    dmaAdvance c s = if s.dma.busy then dmaLoop c.toNat s else s := by
  simp [dmaAdvance, not_lt.mpr hc]

/-- The DMA loop touches DMA state, OAM, the fault and the record alone. -/
theorem dmaLoop_frame : ∀ (n : Nat) (s : State),
    (dmaLoop n s).cfg = s.cfg ∧ (dmaLoop n s).commands = s.commands ∧ (dmaLoop n s).clock = s.clock ∧
      (dmaLoop n s).requestFlags = s.requestFlags ∧ (dmaLoop n s).input = s.input ∧
      (dmaLoop n s).refused = s.refused ∧ (dmaLoop n s).record.busReads = s.record.busReads
  | 0, _ => ⟨rfl, rfl, rfl, rfl, rfl, rfl, rfl⟩
  | n + 1, s => by
    unfold dmaLoop
    split_ifs
    · exact ⟨rfl, rfl, rfl, rfl, rfl, rfl, rfl⟩
    · exact ⟨rfl, rfl, rfl, rfl, rfl, rfl, rfl⟩
    · exact dmaLoop_frame n (dmaCopy s)

/-- The DMA loop keeps OAM canonical: it writes only inside the 160 bytes. -/
theorem dmaLoop_oam_wf : ∀ (n : Nat) (s : State), s.oam.wf = true → (dmaLoop n s).oam.wf = true
  | 0, _, h => h
  | n + 1, s, h => by
    unfold dmaLoop
    split_ifs with h1 h2
    · exact h
    · exact Memory.write_wf h (by omega) _
    · exact dmaLoop_oam_wf n (dmaCopy s) (Memory.write_wf h (by omega) _)

end Sys2Proof.Machine
end

