-- ==== Sys2Proof/Laws/Advance.lean ====
section
/-! SUPPORT. Everything ADVANCE does (40_advance.md R101): the clock half field by field, then the DMA half. -/

namespace Sys2Proof.Machine

/-- The clock after the clock half. -/
theorem clockAdvance_clock {c : Int} (hc : 0 ≤ c) (s : State) :
    (clockAdvance c s).clock =
      { s.clock with
        dividerCounter := s.clock.dividerCounter - c +
          triggerCount s.cfg.divInterval (s.clock.dividerCounter - c) * s.cfg.divInterval
        dividerRegister := s.clock.dividerRegister +
          BitVec.ofNat 8 (triggerCount s.cfg.divInterval (s.clock.dividerCounter - c))
        timerCounter :=
          if s.clock.timerEnabled then
            s.clock.timerCounter - c + timerTicks c s * s.cfg.timerInterval s.clock.timerSelect
          else s.clock.timerCounter
        timerRegister :=
          if s.clock.timerEnabled then (timerTick^[timerTicks c s] (dividerStep c s)).clock.timerRegister
          else s.clock.timerRegister } := by
  have e : timerTicks c (dividerStep c s) = timerTicks c s := by rw [dividerStep_eq]; rfl
  rw [clockAdvance_eq hc, timerStep_eq, e]
  simp only [dividerStep_eq, State.setClock_clock, State.setClock_cfg]
  by_cases h : s.clock.timerEnabled = true
  · simp only [h, if_true]; simp only [State.setFlags_clock, State.setClock_clock]
  · simp [h]

/-- The flags after the clock half. -/
theorem clockAdvance_flags {c : Int} (hc : 0 ≤ c) (s : State) :
    (clockAdvance c s).requestFlags =
      if s.clock.timerEnabled then (timerTick^[timerTicks c s] (dividerStep c s)).requestFlags
      else s.requestFlags := by
  have e : timerTicks c (dividerStep c s) = timerTicks c s := by rw [dividerStep_eq]; rfl
  rw [clockAdvance_eq hc, timerStep_eq, e]
  simp only [dividerStep_eq, State.setClock_clock, State.setClock_cfg]
  by_cases h : s.clock.timerEnabled = true <;> simp [h]

/-- The clock half leaves the DMA engine alone. -/
theorem clockAdvance_dma {c : Int} (hc : 0 ≤ c) (s : State) : (clockAdvance c s).dma = s.dma := by
  rw [clockAdvance_frame hc]; rfl

/-- ADVANCE runs the clock half, and during a transfer the DMA loop on what it leaves. -/
theorem exec_advance_eq (c : Cycles) (s : State) :
    exec (.advance c) s =
      .next (if s.dma.busy then dmaLoop c.toNat (clockAdvance c.toNat s) else clockAdvance c.toNat s) := by
  show Host.Outcome.next (advanceBy c.toNat s) = _
  rw [advanceBy, if_neg (by omega), dmaAdvance_eq (by omega), clockAdvance_dma (by omega)]
  rfl

/-- ADVANCE during a transfer copies a byte per unit and completes on the unit that brings the count to 160. -/
theorem exec_advance_busy (c : Cycles) (s : State) (hb : s.dma.busy = true) (hn : s.dma.count < dmaLength) :
    exec (.advance c) s =
      .next (if c.toNat < dmaLength - s.dma.count then dmaCopy^[c.toNat] (clockAdvance c.toNat s)
        else dmaComplete (dmaCopy^[dmaLength - s.dma.count] (clockAdvance c.toNat s))) := by
  have h := dmaLoop_eq c.toNat (clockAdvance c.toNat s) (by rw [clockAdvance_dma (by omega)]; exact hn)
  rw [clockAdvance_dma (by omega)] at h
  rw [exec_advance_eq, if_pos hb, h]

/-- ADVANCE outside a transfer is its clock half. -/
theorem exec_advance_idle (c : Cycles) (s : State) (hb : s.dma.busy = false) :
    exec (.advance c) s = .next (clockAdvance c.toNat s) := by
  rw [exec_advance_eq, if_neg (by simp [hb])]

end Sys2Proof.Machine
end

