-- ==== Sys2Proof/Laws/Encode.lean ====
section
/-! SUPPORT. Command words as numbers: the fields of a word by division and remainder, and the number each format
writes. -/

namespace Sys2Proof

theorem toNat_append_add {m n : Nat} (x : BitVec m) (y : BitVec n) :
    (x ++ y).toNat = x.toNat * 2 ^ n + y.toNat := by
  rw [BitVec.toNat_append, ← Nat.shiftLeft_add_eq_or_of_lt y.isLt, Nat.shiftLeft_eq]

/-- A field of a word as a number. -/
theorem extractLsb'_toNat_div {m : Nat} (w : BitVec m) (lo n : Nat) :
    (w.extractLsb' lo n).toNat = w.toNat / 2 ^ lo % 2 ^ n := by
  rw [BitVec.extractLsb'_toNat, Nat.shiftRight_eq_div_pow]

/-- Format BR (R72) as a number. -/
theorem encodeRead_toNat (a : Addr) : (encodeRead a).toNat = 0x10000000 + a.toNat :=
  (toNat_append_add _ a).trans (by simp)

/-- Format BW (R73) as a number. -/
theorem encodeWrite_toNat (a : Addr) (d : Byte) :
    (encodeWrite a d).toNat = 0x20000000 + d.toNat * 2 ^ 16 + a.toNat := by
  refine (toNat_append_add _ a).trans ?_
  rw [toNat_append_add _ d]
  simp only [BitVec.reduceAppend, BitVec.reduceToNat]
  omega

/-- Format ADV (R74) as a number. -/
theorem encode_advance_toNat (c : Config) (n : Cycles) :
    (encode c (.advance n)).toNat = 0x30000000 + n.toNat :=
  (toNat_append_add _ n).trans (by simp)

/-- Format PL (R75) as a number. -/
theorem encode_poll_toNat (c : Config) (k : Byte) : (encode c (.poll k)).toNat = 0x40000000 + k.toNat :=
  (toNat_append_add _ k).trans (by simp)

/-- Format IQ, CLS 0x5 (R76), as a number. -/
theorem encode_irqReq_toNat (c : Config) (m : Flags) : (encode c (.irqReq m)).toNat = 0x50000000 + m.toNat :=
  (toNat_append_add _ m).trans (by simp)

/-- Format IQ, CLS 0x6 (R76), as a number. -/
theorem encode_irqClr_toNat (c : Config) (m : Flags) : (encode c (.irqClr m)).toNat = 0x60000000 + m.toNat :=
  (toNat_append_add _ m).trans (by simp)

/-- Format DS (R77) as a number. -/
theorem encode_dmaStart_toNat (c : Config) (a : Addr) :
    (encode c (.dmaStart a)).toNat = 0x70000000 + a.toNat :=
  (toNat_append_add _ a).trans (by simp)

/-- The word of a read command (R79). -/
theorem encode_readOf (c : Config) (r : BusReg) : encode c (readOf r) = encodeRead (c.addrOf r) := by
  cases r <;> rfl

/-- The word of a write command (R79). -/
theorem encode_writeOf (c : Config) (d : Byte) (r : BusReg) :
    encode c (writeOf d r) = encodeWrite (c.addrOf r) d := by
  cases r <;> rfl

/-- A BR word of a register's address is legal (R80). -/
theorem legalWord_encodeRead (c : Config) (r : BusReg) : legalWord c (encodeRead (c.addrOf r)) = true := by
  have h := encodeRead_toNat (c.addrOf r)
  have hlt := (c.addrOf r).isLt
  have h1 : ((encodeRead (c.addrOf r)).extractLsb' 28 4).toNat = 1 := by
    rw [extractLsb'_toNat_div, h]; omega
  have h2 : (encodeRead (c.addrOf r)).extractLsb' 16 12 = 0 := by
    apply BitVec.eq_of_toNat_eq; rw [extractLsb'_toNat_div, h]; simp; omega
  have h3 : (encodeRead (c.addrOf r)).extractLsb' 0 16 = c.addrOf r := by
    apply BitVec.eq_of_toNat_eq; rw [extractLsb'_toNat_div, h]; omega
  have h4 := (c.mem_addresses_iff (c.addrOf r)).mpr ⟨r, rfl⟩
  simp only [legalWord, reservedClass, reservedBitSet, namesNoRegister, h1, h2, h3, List.contains_eq_mem, h4]
  decide

/-- A BW word of a register's address is legal (R80). -/
theorem legalWord_encodeWrite (c : Config) (r : BusReg) (d : Byte) :
    legalWord c (encodeWrite (c.addrOf r) d) = true := by
  have h := encodeWrite_toNat (c.addrOf r) d
  have hlt := (c.addrOf r).isLt
  have hd := d.isLt
  have h1 : ((encodeWrite (c.addrOf r) d).extractLsb' 28 4).toNat = 2 := by
    rw [extractLsb'_toNat_div, h]; omega
  have h2 : (encodeWrite (c.addrOf r) d).extractLsb' 24 4 = 0 := by
    apply BitVec.eq_of_toNat_eq; rw [extractLsb'_toNat_div, h]; simp; omega
  have h3 : (encodeWrite (c.addrOf r) d).extractLsb' 0 16 = c.addrOf r := by
    apply BitVec.eq_of_toNat_eq; rw [extractLsb'_toNat_div, h]; omega
  have h4 := (c.mem_addresses_iff (c.addrOf r)).mpr ⟨r, rfl⟩
  simp only [legalWord, reservedClass, reservedBitSet, namesNoRegister, h1, h2, h3, List.contains_eq_mem, h4]
  decide

/-- A word of a class 3..7 with its reserved field clear is legal (R80). -/
theorem legalWord_of_class (c : Config) {w : Word} (k : Nat) (hk : 3 ≤ k ∧ k ≤ 7)
    (hc : w.toNat / 2 ^ 28 = k) (hr : reservedBitSet w = false) : legalWord c w = true := by
  have h1 : (w.extractLsb' 28 4).toNat = k := by rw [extractLsb'_toNat_div]; omega
  simp only [legalWord, reservedClass, namesNoRegister, h1, hr]
  obtain ⟨h3, h7⟩ := hk
  interval_cases k <;> rfl

end Sys2Proof
end

