-- ==== Sys2Proof/Laws/Joypad.lean ====
section
/-! SUPPORT. What POLL does. -/

namespace Sys2Proof.Machine

/-- The scan finds a release exactly when some bit is set, whatever the order (R181). -/
theorem firstRelease_eq_none_iff (released : Byte) : firstRelease released = none ↔ released = 0 := by
  constructor
  · intro h
    apply BitVec.eq_of_getLsbD_eq
    intro i hi
    have := List.find?_eq_none.mp h i (List.mem_range.mpr hi)
    simpa using this
  · rintro rfl
    simp [firstRelease]

/-- Everything POLL does (R180, R181). -/
theorem pollKeys_eq (keys : Byte) (s : State) :
    pollKeys keys s =
      (s.setInput { s.input with current := keys, previous := keys }).setFlags
        (if s.input.previous &&& ~~~keys = 0 then s.requestFlags
         else s.requestFlags ||| flagMask s.cfg.toConfig .joypad) := by
  unfold pollKeys
  split
  · rename_i i h
    have : ¬ s.input.previous &&& ~~~keys = 0 := fun h0 => by
      rw [(firstRelease_eq_none_iff _).mpr h0] at h; cases h
    rw [if_neg this]; rfl
  · rename_i h
    rw [if_pos ((firstRelease_eq_none_iff _).mp h)]; rfl

end Sys2Proof.Machine
end

