-- ==== Sys2Proof/Laws/PerInstr.lean ====
section
/-! SUPPORT. One statement per command about its encoding: under every configuration the encoder writes a word that
R80 does not refuse. -/

namespace Sys2Proof.Laws.EncodingLegal

/-- The word of an instruction is legal under every valid configuration (30_encoding.md R80). -/
def Statement (i : Instr) : Prop := ∀ c : ValidConfig, legalWord c.toConfig (encode c.toConfig i) = true

theorem rdJoyp : Statement .rdJoyp := fun c => legalWord_encodeRead c.toConfig .joyp
theorem wrJoyp (data : Byte) : Statement (.wrJoyp data) := fun c => legalWord_encodeWrite c.toConfig .joyp data
theorem rdDiv : Statement .rdDiv := fun c => legalWord_encodeRead c.toConfig .div
theorem wrDiv (data : Byte) : Statement (.wrDiv data) := fun c => legalWord_encodeWrite c.toConfig .div data
theorem rdTima : Statement .rdTima := fun c => legalWord_encodeRead c.toConfig .tima
theorem wrTima (data : Byte) : Statement (.wrTima data) := fun c => legalWord_encodeWrite c.toConfig .tima data
theorem rdTma : Statement .rdTma := fun c => legalWord_encodeRead c.toConfig .tma
theorem wrTma (data : Byte) : Statement (.wrTma data) := fun c => legalWord_encodeWrite c.toConfig .tma data
theorem rdTac : Statement .rdTac := fun c => legalWord_encodeRead c.toConfig .tac
theorem wrTac (data : Byte) : Statement (.wrTac data) := fun c => legalWord_encodeWrite c.toConfig .tac data
theorem rdIf : Statement .rdIf := fun c => legalWord_encodeRead c.toConfig .ifReg
theorem wrIf (data : Byte) : Statement (.wrIf data) := fun c => legalWord_encodeWrite c.toConfig .ifReg data
theorem rdDma : Statement .rdDma := fun c => legalWord_encodeRead c.toConfig .dma
theorem wrDma (data : Byte) : Statement (.wrDma data) := fun c => legalWord_encodeWrite c.toConfig .dma data

/-- A field is zero when the number in it is. -/
theorem field_zero {w : Word} {lo n : Nat} (h : w.toNat / 2 ^ lo % 2 ^ n = 0) : w.extractLsb' lo n = 0 := by
  apply BitVec.eq_of_toNat_eq
  rw [extractLsb'_toNat_div, h]; simp

theorem advance (cycles : Cycles) : Statement (.advance cycles) := fun c => by
  have h := encode_advance_toNat c.toConfig cycles
  have hlt := cycles.isLt
  have h1 : ((encode c.toConfig (.advance cycles)).extractLsb' 28 4).toNat = 3 := by
    rw [extractLsb'_toNat_div]; omega
  refine legalWord_of_class _ 3 (by omega) (by omega) ?_
  simp only [reservedBitSet, h1]

theorem poll (keys : Byte) : Statement (.poll keys) := fun c => by
  have h := encode_poll_toNat c.toConfig keys
  have hlt := keys.isLt
  have h1 : ((encode c.toConfig (.poll keys)).extractLsb' 28 4).toNat = 4 := by
    rw [extractLsb'_toNat_div]; omega
  have h2 : (encode c.toConfig (.poll keys)).extractLsb' 8 20 = 0 := field_zero (by omega)
  refine legalWord_of_class _ 4 (by omega) (by omega) ?_
  simp only [reservedBitSet, h1, h2]; rfl

theorem irqReq (mask : Flags) : Statement (.irqReq mask) := fun c => by
  have h := encode_irqReq_toNat c.toConfig mask
  have hlt := mask.isLt
  have h1 : ((encode c.toConfig (.irqReq mask)).extractLsb' 28 4).toNat = 5 := by
    rw [extractLsb'_toNat_div]; omega
  have h2 : (encode c.toConfig (.irqReq mask)).extractLsb' 5 23 = 0 := field_zero (by omega)
  refine legalWord_of_class _ 5 (by omega) (by omega) ?_
  simp only [reservedBitSet, h1, h2]; rfl

theorem irqClr (mask : Flags) : Statement (.irqClr mask) := fun c => by
  have h := encode_irqClr_toNat c.toConfig mask
  have hlt := mask.isLt
  have h1 : ((encode c.toConfig (.irqClr mask)).extractLsb' 28 4).toNat = 6 := by
    rw [extractLsb'_toNat_div]; omega
  have h2 : (encode c.toConfig (.irqClr mask)).extractLsb' 5 23 = 0 := field_zero (by omega)
  refine legalWord_of_class _ 6 (by omega) (by omega) ?_
  simp only [reservedBitSet, h1, h2]; rfl

theorem dmaStart (src : Addr) : Statement (.dmaStart src) := fun c => by
  have h := encode_dmaStart_toNat c.toConfig src
  have hlt := src.isLt
  have h1 : ((encode c.toConfig (.dmaStart src)).extractLsb' 28 4).toNat = 7 := by
    rw [extractLsb'_toNat_div]; omega
  have h2 : (encode c.toConfig (.dmaStart src)).extractLsb' 16 12 = 0 := field_zero (by omega)
  refine legalWord_of_class _ 7 (by omega) (by omega) ?_
  simp only [reservedBitSet, h1, h2]; rfl

end Sys2Proof.Laws.EncodingLegal
end

