-- ==== Sys2Proof/Laws/Step.lean ====
section
/-! SUPPORT. Everything one step can do (40_advance.md R100), and the host's run step by step. -/

namespace Sys2Proof.Machine

/-- A step that answers a next state idled, set the refused mark, or performed the command next presented. -/
theorem step_cases {s t : State} (h : step s = .next t) :
    s.fault = none ∧
      ((s.commands = [] ∧ t = s) ∨
       (∃ w ws e, s.commands = w :: ws ∧ decode s.cfg.toConfig w = .error e ∧ t = (s.setCommands ws).refuse) ∨
       (∃ w ws i, s.commands = w :: ws ∧ decode s.cfg.toConfig w = .ok i ∧ exec i (s.setCommands ws) = .next t)) := by
  unfold step at h
  cases hf : s.fault with
  | some r => rw [hf] at h; simp at h
  | none =>
    rw [hf] at h
    cases hc : s.commands with
    | nil => simp [takeCommand, hc] at h; exact ⟨rfl, .inl ⟨rfl, h.symm⟩⟩
    | cons w ws =>
      simp only [takeCommand, hc, State.setCommands_cfg] at h
      cases hd : decode s.cfg.toConfig w with
      | error e => rw [hd] at h; simp at h; exact ⟨rfl, .inr (.inl ⟨w, ws, e, rfl, hd, h.symm⟩)⟩
      | ok i => rw [hd] at h; exact ⟨rfl, .inr (.inr ⟨w, ws, i, rfl, hd, h⟩)⟩

/-- The host's run goes on from a next state. -/
theorem core_run_next {s t : State} (n : Nat) (h : step s = .next t) :
    core.run (n + 1) s = core.run n t := by
  have h' : core.step s = .next t := h
  exact (Host.Core.run.eq_2 core s n).trans (by rw [h'])

/-- The host's run stops at a fault. -/
theorem core_run_fault {s : State} {r : Fault} (n : Nat) (h : step s = .fault r) :
    core.run (n + 1) s = .fault r := by
  have h' : core.step s = .fault r := h
  exact (Host.Core.run.eq_2 core s n).trans (by rw [h'])

end Sys2Proof.Machine
end

