-- ==== Sys2Proof/Tests/Slice0.lean ====
section
/-! SUPPORT. The model's own tests. Expected results come from spec/95_test_vectors.md, from the examples in the rules,
or by hand from the rules. The last part shows, for every obligation with hypotheses, states and operands that meet
them. -/

namespace Sys2Proof.Tests

open Sys2Proof Sys2Proof.Machine

/-! ## Helpers -/

/-- A field of the state after some commands. -/
def after {α : Type} (is : List Instr) (s : State) (f : State → α) : Option α :=
  match perform is s with
  | .next t => some (f t)
  | _ => none

/-- Reset, with this divider countdown and DIV. -/
def divState (counter : Int) (reg : Byte) : State :=
  State.reset.setClock { State.reset.clock with dividerCounter := counter, dividerRegister := reg }

/-- Reset, with this timer state and these flags. -/
def timState (on : Bool) (sel : BitVec 2) (counter : Int) (tima tma : Byte) (flags : Flags) : State :=
  (State.reset.setClock { State.reset.clock with
    timerEnabled := on, timerSelect := sel, timerCounter := counter, timerRegister := tima,
    timerModulo := tma }).setFlags flags

/-- Reset, with this DMA state. -/
def dmaState (busy : Bool) (src : Addr) (count : Nat) : State := State.reset.setDma { source := src, count, busy }

/-- Reset, with these keys at the last poll and these select lines. -/
def keyState (keys : Byte) (sel : BitVec 2) : State :=
  State.reset.setInput { current := keys, previous := keys, select := sel }

/-- Reset, with these flags. -/
def flagState (f : Flags) : State := State.reset.setFlags f

/-- Reset, with these words to be presented. -/
def presented (ws : List Word) : State := State.reset.setCommands ws

/-- Reset, stopped by a fault. -/
def faulted : State := State.reset.raise (.dmaCountRange 160)

/-- A configuration other than the default: addresses permuted, flags reversed, other intervals. -/
def otherConfig : ValidConfig where
  divInterval := 3
  timerTable := #v[5, 1, 12, 7]
  addrJoyp := 0x0006
  addrDiv := 0x0005
  addrTima := 0x0004
  addrTma := 0x0003
  addrTac := 0x0002
  addrIf := 0x0001
  addrDma := 0x0000
  tacHigh := 0
  ifHigh := 0
  joypHigh := 0
  vecVblank := 4
  vecStat := 3
  vecTimer := 0
  vecSerial := 1
  vecJoypad := 2
  ok := by decide

/-! ## WellFormed: an ill-formed term for each check -/

/-- R80 (a): 0x0 and 0x8 are reserved classes, 0x7 is not. -/
theorem test_wf_reserved_class :
    reservedClass 0x00000000 = true ∧ reservedClass 0x80000000 = true ∧ reservedClass 0xF0000000 = true ∧
      reservedClass 0x70000000 = false := by decide

/-- R80 (b), one word per format with a reserved bit (95_test_vectors.md section 2.1, and R76 for IRQ_CLR). -/
theorem test_wf_reserved_bits :
    [0x1001FF04, 0x18000000, 0x2100FF04, 0x28000000, 0x40000100, 0x48000000, 0x50000020, 0x58000000, 0x60000020,
      0x68000000, 0x70010000, 0x78000000].all (reservedBitSet ·) = true ∧ reservedBitSet 0x3FFFFFFF = false := by
  decide

/-- R80 (c): 0xFF03 and 0xFE00 are no register. -/
theorem test_wf_no_register :
    namesNoRegister ValidConfig.standard.toConfig 0x1000FF03 = true ∧
      namesNoRegister ValidConfig.standard.toConfig 0x2000FE00 = true ∧
      namesNoRegister ValidConfig.standard.toConfig 0x1000FF46 = false := by decide

/-- R82: one immediate above each range is refused and the last value in it is not. -/
theorem test_wf_immediates :
    [AsmCommand.wr (.name .tma) 256, .adv (2 ^ 28), .poll 256, .irqReq 32, .irqClr 32, .dmaStart 65536].all
        (fun k => !k.wellFormed) = true ∧
      [AsmCommand.wr (.name .tma) 255, .adv (2 ^ 28 - 1), .poll 255, .irqReq 31, .irqClr 31, .dmaStart 65535].all
        (fun k => k.wellFormed) = true := by decide

/-- R83: the same for the pseudo-instructions' operands. -/
theorem test_wf_pseudo :
    [AsmLine.timerStart 4, .dmaPage 256, .irqAck 32, .advLong (2 ^ 28 - 1), .command (.poll 256)].all
        (fun l => !l.wellFormed) = true ∧
      [AsmLine.timerStart 3, .dmaPage 255, .irqAck 31, .advLong (2 ^ 28)].all (fun l => l.wellFormed) = true := by
  decide

/-- R7's constraints, each broken alone. -/
theorem test_wf_config :
    let c := ValidConfig.standard.toConfig
    [{ c with divInterval := 0 }, { c with timerTable := #v[256, 4, 0, 64] }, { c with addrIf := 0xFF46 },
      { c with vecTimer := 4 }, { c with vecTimer := 5 }, { c with timerTable := #v[255, 4, 16, 64] }].all (fun d => !d.valid) = true ∧ c.valid = true := by
  decide

/-- No instruction is ill formed: a zero mask (R76), every TAC value (R127) and every page (R145) are legal. -/
theorem test_wf_instr :
    [Instr.irqReq 0, .wrTac 0xFF, .wrDma 0xFF, .advance 0].all (·.wellFormed) = true := by decide

/-- OAM's canonical form: offsets that repeat, and an offset above 159, are refused. -/
theorem test_wf_oam :
    Memory.wf [(3, 1), (3, 2)] = false ∧ Memory.wf [(4, 1), (3, 2)] = false ∧ Memory.wf [(160, 0)] = false := by decide

/-- And so is a cell that holds what its offset holds unlisted; writing that byte lists nothing. -/
theorem test_wf_oam_free_byte :
    Memory.wf [(3, Config.oamByte 3)] = false ∧ Memory.write [] 3 (Config.oamByte 3) = [] := by
  constructor
  · simp [Memory.wf, Memory.wfFrom]
  · simp [Memory.write]

/-- OAM has 160 bytes: one at 159, none at 160 (R35). -/
theorem test_oam_size : State.reset.oam.read 159 = some (Config.oamByte 159) ∧ State.reset.oam.read 160 = none :=
  ⟨rfl, rfl⟩

/-! ## Decode: words written out from the format tables, one per command -/

/-- Bus reads (95_test_vectors.md section 2.1). -/
theorem test_decode_reads :
    decodeTableWord 32 0x1000FF00 = some .rdJoyp ∧ decodeTableWord 32 0x1000FF04 = some .rdDiv ∧
      decodeTableWord 32 0x1000FF05 = some .rdTima ∧ decodeTableWord 32 0x1000FF06 = some .rdTma ∧
      decodeTableWord 32 0x1000FF07 = some .rdTac ∧ decodeTableWord 32 0x1000FF0F = some .rdIf ∧
      decodeTableWord 32 0x1000FF46 = some .rdDma := by decide

/-- Bus writes (95_test_vectors.md sections 2.1 and 3). -/
theorem test_decode_writes :
    decodeTableWord 32 0x2010FF00 = some (.wrJoyp 0x10) ∧ decodeTableWord 32 0x2099FF04 = some (.wrDiv 0x99) ∧
      decodeTableWord 32 0x20FDFF05 = some (.wrTima 0xFD) ∧ decodeTableWord 32 0x20FEFF06 = some (.wrTma 0xFE) ∧
      decodeTableWord 32 0x2005FF07 = some (.wrTac 0x05) ∧ decodeTableWord 32 0x2000FF0F = some (.wrIf 0x00) ∧
      decodeTableWord 32 0x20C1FF46 = some (.wrDma 0xC1) := by decide

/-- The other formats (95_test_vectors.md section 2.1), ADVANCE written out bit by bit from R74. -/
theorem test_decode_others :
    decodeTableWord 32 0b00110000000000000000000100000000 = some (.advance 256) ∧
      decodeTableWord 32 0x3FFFFFFF = some (.advance 268435455) ∧
      decodeTableWord 32 0x4000007F = some (.poll 0x7F) ∧
      decodeTableWord 32 0x50000004 = some (.irqReq 0x04) ∧ decodeTableWord 32 0x60000010 = some (.irqClr 0x10) ∧
      decodeTableWord 32 0x7000FFF0 = some (.dmaStart 0xFFF0) := by decide

/-- The refused words of 95_test_vectors.md section 2.1. -/
theorem test_decode_refused :
    [0x1001FF04, 0x2100FF04, 0x1000FF03, 0x2000FE00, 0x40000100, 0x50000020, 0x70010000, 0x00000000, 0x80000000,
      0xF0000000].all (fun w => decodeTableWord 32 w == none) = true := by decide

/-- R79: addresses are compared with the configured ones, not with the defaults. -/
theorem test_decode_other_addresses :
    decode otherConfig.toConfig 0x10000006 = .ok .rdJoyp ∧
      decode otherConfig.toConfig 0x20330000 = .ok (.wrDma 0x33) ∧
      decode otherConfig.toConfig 0x1000FF00 = .error .noRegister := ⟨rfl, rfl, rfl⟩

/-- The encoder gives the words of 95_test_vectors.md section 3. -/
theorem test_encode :
    encode ValidConfig.standard.toConfig (.wrTma 0xFE) = 0x20FEFF06 ∧
      encode ValidConfig.standard.toConfig (.advance 100) = 0x30000064 ∧
      encode ValidConfig.standard.toConfig (.dmaStart 0xD000) = 0x7000D000 := by decide

/-! ## The assembler (R82, R83), lines of 95_test_vectors.md section 3 -/

theorem test_asm_bus :
    assembleText ValidConfig.standard.toConfig "wr TMA, 0xFE".toList = some [0x20FEFF06] ∧
      assembleText ValidConfig.standard.toConfig "rd IF".toList = some [0x1000FF0F] ∧
      assembleText ValidConfig.standard.toConfig "rd $FF46".toList = some [0x1000FF46] := by decide

theorem test_asm_masks :
    assembleText ValidConfig.standard.toConfig "poll A | START".toList = some [0x40000009] ∧
      assembleText ValidConfig.standard.toConfig "irq.clr TIMER | JOYPAD".toList = some [0x60000014] ∧
      assembleText ValidConfig.standard.toConfig "irq.req 0b00011".toList = some [0x50000003] := by decide

theorem test_asm_pseudo :
    assembleText ValidConfig.standard.toConfig "timer.start 2".toList = some [0x2006FF07] ∧
      assembleText ValidConfig.standard.toConfig "joyp.dirs".toList = some [0x2020FF00] ∧
      assembleText ValidConfig.standard.toConfig "adv.long 268435456".toList = some [0x3FFFFFFF, 0x30000001] := by
  decide

theorem test_asm_refused :
    assembleText ValidConfig.standard.toConfig "adv 268435456".toList = none ∧
      assembleText ValidConfig.standard.toConfig "wr DIV".toList = none ∧
      assembleText ValidConfig.standard.toConfig "nop".toList = none := by decide

/-! ## One step each -/

/-- R120: the register is returned, and it stays. -/
theorem test_rd_div :
    after [.rdDiv] (divState 62 0x02) (fun t => (t.record.busReads, t.clock.dividerRegister)) =
      some ([0x02], 0x02) := by decide

/-- Counter 5, DIV 0x33: `wr DIV, 0x99` gives DIV 0x00 and counter 5 (R121). -/
theorem test_wr_div :
    after [.wrDiv 0x99] (divState 5 0x33) (fun t => (t.clock.dividerCounter, t.clock.dividerRegister)) =
      some (5, 0x00) := by decide

theorem test_rd_tima :
    after [.rdTima] (timState false 0 256 0x42 0 0) (·.record.busReads) = some [0x42] := by decide

/-- R123: a written 0xFF requests nothing until a tick. -/
theorem test_wr_tima :
    after [.wrTima 0xFF] (timState true 1 4 0x10 0x80 0) (fun t => (t.clock.timerRegister, t.requestFlags)) =
      some (0xFF, 0) := by decide

theorem test_rd_tma :
    after [.rdTma] (timState false 0 256 0x42 0xC0 0) (·.record.busReads) = some [0xC0] := by decide

/-- TIMA 0x10: `wr TMA, 0xF0` leaves TIMA 0x10 (R125). -/
theorem test_wr_tma :
    after [.wrTma 0xF0] (timState true 1 4 0x10 0x10 0) (fun t => (t.clock.timerRegister, t.clock.timerModulo)) =
      some (0x10, 0xF0) := by decide

/-- 0xF8 at reset, and 0xFB with select 11 and the timer off (95_test_vectors.md section 2.4). -/
theorem test_rd_tac :
    after [.rdTac] State.reset (·.record.busReads) = some [0xF8] ∧
      after [.rdTac] (timState false 3 256 0 0 0) (·.record.busReads) = some [0xFB] := by decide

/-- R127's example: the counter stays 256 when TAC changes the interval to 16. -/
theorem test_wr_tac :
    after [.wrTac 0x06] State.reset
        (fun t => (t.clock.timerEnabled, t.cfg.timerInterval t.clock.timerSelect, t.clock.timerCounter)) =
      some (true, 16, 256) := by decide

/-- `wr TAC, 0x58`: bits 7:3 are ignored, the timer is off with select 00 (95_test_vectors.md section 2.4). -/
theorem test_wr_tac_unused_bits :
    after [.wrTac 0x58] (timState true 3 200 0 0 0) (fun t => (t.clock.timerEnabled, t.clock.timerSelect)) =
      some (false, 0b00) := by decide

/-- Flags 0b00100 read as 0xE4 and stay (R162). -/
theorem test_rd_if :
    after [.rdIf] (flagState 0b00100) (fun t => (t.record.busReads, t.requestFlags)) =
      some ([0xE4], 0b00100) := by decide

/-- `wr IF, 0x10` from 0b00101 gives 0b10000 (R163), and bits 7:5 are ignored. -/
theorem test_wr_if :
    after [.wrIf 0x10] (flagState 0b00101) (·.requestFlags) = some 0b10000 ∧
      after [.wrIf 0xE4] (flagState 0b00101) (·.requestFlags) = some 0b00100 := by decide

/-- R146: one byte is returned and nothing else changes. -/
theorem test_rd_dma :
    after [.rdDma] (dmaState true 0xC000 5) (fun t => (t.record.busReads.length, t.dma)) =
      some (1, { source := 0xC000, count := 5, busy := true }) := by decide

/-- `wr DMA, 0xC1` during a transfer restarts at 0xC100 (95_test_vectors.md section 2.5). -/
theorem test_wr_dma :
    after [.wrDma 0xC1] (dmaState true 0xC000 5) (·.dma) =
      some { source := 0xC100, count := 0, busy := true } := by decide

theorem test_dma_start :
    after [.dmaStart 0xD000] (dmaState true 0xC000 10) (·.dma) =
      some { source := 0xD000, count := 0, busy := true } := by decide

/-- Rows of 95_test_vectors.md sections 2.2 and 2.3. -/
theorem test_advance_clock :
    let div := fun (t : State) => (t.clock.dividerCounter, t.clock.dividerRegister)
    let tim := fun (t : State) => (t.clock.timerCounter, t.clock.timerRegister, t.requestFlags)
    after [.advance 63] (divState 64 0x00) div = some (1, 0x00) ∧
      after [.advance 64] (divState 64 0xFF) div = some (64, 0x00) ∧
      after [.advance 75] (divState 10 0x7F) div = some (63, 0x81) ∧
      after [.advance 200] (divState 5 0x00) div = some (61, 0x04) ∧
      after [.advance 10] (timState true 1 3 0x10 0x00 0) tim = some (1, 0x12, 0) ∧
      after [.advance 4] (timState true 1 4 0xFF 0x80 0b00001) tim = some (4, 0x80, 0b00101) ∧
      after [.advance 16] (timState true 1 4 0xFE 0xFD 0) tim = some (4, 0xFF, 0b00100) ∧
      after [.advance 199] (timState true 1 200 0x00 0x00 0) tim = some (1, 0x00, 0) ∧
      after [.advance 1000] (timState false 0 256 0x12 0x00 0) tim = some (256, 0x12, 0) := by decide

/-- Rows of 95_test_vectors.md section 2.5: ten bytes from count 0, the wrap of a source of 0xFFF0, the end of a
transfer with budget left, and that the byte stored is the one the oracle answered. -/
theorem test_advance_dma :
    after [.advance 10] (dmaState true 0xC100 0) (fun t => (t.record.rawReads.map Prod.fst, t.dma)) =
      some ([0xC100, 0xC101, 0xC102, 0xC103, 0xC104, 0xC105, 0xC106, 0xC107, 0xC108, 0xC109],
        { source := 0xC100, count := 10, busy := true }) ∧
    after [.advance 2] (dmaState true 0xFFF0 15) (·.record.rawReads.map Prod.fst) = some [0xFFFF, 0x0000] ∧
    after [.advance 100] (dmaState true 0xC000 158) (fun t => (t.dma, t.record.rawReads.map Prod.fst)) =
      some ({ source := 0x0000, count := 0, busy := false }, [0xC09E, 0xC09F]) ∧
    after [.advance 1] (dmaState true 0xC000 159) (fun t => (t.oam.read 159, t.oam.read 158)) =
      some (some (Config.rawByte 0 0xC09F), some (Config.oamByte 158)) := by
  refine ⟨by decide, by decide, by decide, congrArg some (Prod.ext ?_ ?_)⟩
  · exact Memory.read_write_same [] (off := 159) (by decide) _
  · exact Memory.read_write_other [] (off := 159) (x := 158) _ (by decide)

/-- Down released and A pressed at once (95_test_vectors.md section 2.7). -/
theorem test_poll :
    after [.poll 0x01] (keyState 0x80 3) (fun t => (t.input.current, t.input.previous, t.requestFlags)) =
      some (0x01, 0x01, 0b10000) := by decide

/-- A press and a held key raise nothing (95_test_vectors.md section 2.7). -/
theorem test_poll_no_release :
    after [.poll 0x01] (keyState 0x00 3) (·.requestFlags) = some 0 ∧
      after [.poll 0x0F] (keyState 0x0F 0) (·.requestFlags) = some 0 := by decide

/-- Keys 0x81 with each selection (R182's example and 95_test_vectors.md section 2.7). -/
theorem test_rd_joyp :
    after [.rdJoyp] (keyState 0x81 1) (·.record.busReads) = some [0xFE] ∧
      after [.rdJoyp] (keyState 0x81 2) (·.record.busReads) = some [0xF7] ∧
      after [.rdJoyp] (keyState 0x81 0) (·.record.busReads) = some [0xF6] ∧
      after [.rdJoyp] (keyState 0x81 3) (·.record.busReads) = some [0xFF] := by decide

/-- `wr JOYP, 0xEF` selects the directions alone (R183). -/
theorem test_wr_joyp : after [.wrJoyp 0xEF] State.reset (·.input.select) = some 0b10 := by decide

theorem test_irq_req :
    after [.irqReq 0x04] (flagState 0b00001) (·.requestFlags) = some 0b00101 ∧
      after [.irqReq 0x00] (flagState 0b00001) (·.requestFlags) = some 0b00001 := by decide

theorem test_irq_clr :
    after [.irqClr 0x04] (flagState 0b10100) (·.requestFlags) = some 0b10000 ∧
      after [.irqClr 0x1F] (flagState 0b11111) (·.requestFlags) = some 0b00000 := by decide

/-- Flag positions are the configuration's: with TIMER at bit 0 an overflow sets bit 0. -/
theorem test_flag_position :
    pending (flagState 0b00100) .timer = true ∧
      after [.advance 5] ((State.resetWith otherConfig).setClock
        { (State.resetWith otherConfig).clock with timerEnabled := true, timerRegister := 0xFF }) (·.requestFlags) =
        some 0b00001 := by decide

/-- R111: a negative budget faults and changes nothing else. R141: an iteration at count 160 faults, and none runs on a
zero budget. -/
theorem test_faults :
    advanceBy (-1) State.reset = State.reset.raise (.negativeCycles (-1)) ∧
      dmaAdvance (-2) State.reset = State.reset.raise (.negativeCycles (-2)) ∧
      after [.advance 1] (dmaState true 0xC000 160) (·.fault) = some (some (.dmaCountRange 160)) ∧
      after [.advance 0] (dmaState true 0xC000 160) (·.fault) = some none := by decide

/-! ## The step -/

/-- From reset, the word put before the step is the one it runs (R100). -/
theorem test_step_runs_word :
    step (State.reset.withFetchWord 32 0x2080FF06) =
      .next (State.reset.setClock { State.reset.clock with timerModulo := 0x80 }) := rfl

/-- A reserved word sets the mark, and the word after it is still there to run (R201; P5 steps 5 and 6). -/
theorem test_step_refused_word :
    step (presented [0x80000000, 0x1000FF04]) =
      .next { State.reset with commands := [0x1000FF04], refused := true } := rfl

/-- A faulted state takes no step (R100). -/
theorem test_step_faulted : step (faulted.setCommands [0x1000FF04]) = .fault (.dmaCountRange 160) := rfl

/-! ## Witnesses: what meets the hypotheses of each obligation that has some -/

/-- For OpcodeMapDecodesEveryRow: words at the top of each pattern's operand range. -/
theorem test_witness_opcode_map :
    [(0x20FFFF00, 0x2000FF00), (0x20FFFF04, 0x2000FF04), (0x20FFFF05, 0x2000FF05), (0x20FFFF06, 0x2000FF06),
        (0x20FFFF07, 0x2000FF07), (0x20FFFF0F, 0x2000FF0F), (0x20FFFF46, 0x2000FF46)].all
      (fun p : Word × Word => p.1 &&& 0xFF00FFFF == p.2) = true ∧
    (0x3FFFFFFF &&& 0xF0000000 : Word) = 0x30000000 ∧ (0x400000FF &&& 0xFFFFFF00 : Word) = 0x40000000 ∧
    (0x5000001F &&& 0xFFFFFFE0 : Word) = 0x50000000 ∧ (0x6000001F &&& 0xFFFFFFE0 : Word) = 0x60000000 ∧
    (0x7000FFFF &&& 0xFFFF0000 : Word) = 0x70000000 := by decide

/-- For DecodeOfEncodeIsTheInstruction and EncodeOfDecodeIsTheWord. -/
theorem test_witness_round_trip :
    (Instr.wrTac 0xFF).wellFormed = true ∧
      decode otherConfig.toConfig 0x20FF0002 = .ok (.wrTac 0xFF) := ⟨rfl, rfl⟩

/-- For DecoderRefusesExactlyReservedWords: a word of each kind. -/
theorem test_witness_refused :
    reservedClass 0x80000000 = true ∧ reservedBitSet 0x40000100 = true ∧
      namesNoRegister otherConfig.toConfig 0x1000FF00 = true := by decide

/-- For AssembledCommandsDecode: the last value of each range, and an address that no register has. -/
theorem test_witness_assembled :
    (AsmCommand.wr (.name .dma) 255).wellFormed = true ∧ (AsmCommand.adv (2 ^ 28 - 1)).wellFormed = true ∧
      (AsmCommand.poll 255).wellFormed = true ∧ (AsmCommand.irqReq 31).wellFormed = true ∧
      (AsmCommand.irqClr 31).wellFormed = true ∧ (AsmCommand.dmaStart 65535).wellFormed = true ∧
      ∀ r, ValidConfig.standard.addrOf r ≠ 0xFF03 :=
  ⟨rfl, rfl, rfl, rfl, rfl, rfl, fun r => by cases r <;> decide⟩

/-- For PseudoInstructionsExpand: the least operand of `adv.long`. -/
theorem test_witness_adv_long : (2 : Nat) ^ 28 ≤ 268435456 := by decide

/-- For StepRunsTheDecodedCommand: a faulted state, a refused word, a command, and an answer of each kind. -/
theorem test_witness_step :
    faulted.fault = some (.dmaCountRange 160) ∧ (presented [0x80000000]).fault = none ∧
      (presented [0x80000000]).commands = [0x80000000] ∧
      decode (presented [0x80000000]).cfg.toConfig 0x80000000 = .error .reservedClass ∧
      decode (presented [0x1000FF04]).cfg.toConfig 0x1000FF04 = .ok .rdDiv ∧
      (∃ t, exec .rdDiv State.reset = .next t) ∧ (∃ t, exec (.wrDiv 0) State.reset = .next t) :=
  ⟨rfl, rfl, rfl, rfl, rfl, ⟨_, rfl⟩, ⟨_, rfl⟩⟩

/-- For StepWithNothingPresentedIdles and RunOfAListIsItsWordsOneByOne. -/
theorem test_witness_idle : State.reset.fault = none ∧ State.reset.commands = [] := ⟨rfl, rfl⟩

/-- For StepKeepsParameters: a step with nothing presented, of a refused word, and of a command. -/
theorem test_witness_step_next :
    (∃ t, step State.reset = .next t) ∧ (∃ t, step (presented [0, 1]) = .next t) ∧
      (∃ t, step (presented [0x2005FF07]) = .next t) := ⟨⟨_, rfl⟩, ⟨_, rfl⟩, ⟨_, rfl⟩⟩

/-- For ReservedWordSetsOnlyTheRefusedMark and FaultAndRefusedAreNeverCleared. -/
theorem test_witness_refused_step :
    (presented [0x1000FF03]).fault = none ∧ (presented [0x1000FF03]).commands = [0x1000FF03] ∧
      legalWord (presented [0x1000FF03]).cfg.toConfig 0x1000FF03 = false ∧
      (∃ t, step (presented [0x1000FF03]).refuse = .next t) ∧ (presented [0x1000FF03]).refuse.refused = true ∧
      (∃ t, exec (.wrIf 0) faulted = .next t) ∧ faulted.fault ≠ none ∧
      (∃ t, exec (.wrIf 0) State.reset.refuse = .next t) :=
  ⟨rfl, rfl, rfl, ⟨_, rfl⟩, rfl, ⟨_, rfl⟩, by decide, ⟨_, rfl⟩⟩

/-- For FaultsAreExactlyTheTwoOfTheSpec: a negative budget, both sides of the condition at counts 160 and 159, and a
command from a well-formed state. -/
theorem test_witness_faults :
    (-1 : Int) < 0 ∧
      ((1 : Cycles) ≠ 0 ∧ (dmaState true 0xC000 160).dma.busy = true ∧
        160 ≤ (dmaState true 0xC000 160).dma.count) ∧
      (∃ t, exec (.advance 1) (dmaState true 0xC000 160) = .next t) ∧
      ¬ 160 ≤ (dmaState true 0xC000 159).dma.count ∧
      (∃ t, exec (.advance 1) (dmaState true 0xC000 159) = .next t) ∧ WF State.reset :=
  ⟨by decide, by decide, ⟨_, rfl⟩, by decide, ⟨_, rfl⟩, by decide⟩

/-- For AdvanceDividerClosedForm: the least countdown, below and at the budget that triggers. -/
theorem test_witness_divider :
    1 ≤ (divState 1 0).clock.dividerCounter ∧
      (divState 1 0).clock.dividerCounter ≤ (divState 1 0).cfg.divInterval ∧
      (((0 : Cycles).toNat : Int) < (divState 1 0).clock.dividerCounter) ∧
      ¬ (((1 : Cycles).toNat : Int) < (divState 1 0).clock.dividerCounter) := by decide

/-- For AdvanceTimerClosedForm: from TIMA 0xFF with countdown 4, budget 3 gives no tick, budget 4 the first overflow. -/
theorem test_witness_timer :
    let s := timState true 1 4 0xFF 0x80 0
    s.clock.timerEnabled = true ∧ 1 ≤ s.clock.timerCounter ∧ 256 - s.clock.timerRegister.toNat = 1 ∧
      (((3 : Cycles).toNat : Int) < s.clock.timerCounter) ∧
      ¬ (((4 : Cycles).toNat : Int) < s.clock.timerCounter) := by decide

/-- For TimerTickIncrementsOrReloads, TmaReadYieldsAndWriteStores and OnlyWrTmaWritesTheModulo: exactly one tick, at the ends of its range of
budgets, from TIMA 0xFE and from 0xFF with TMA 0xFF. -/
theorem test_witness_tick :
    [timState true 1 4 0xFE 0x80 0, timState true 1 4 0xFF 0xFF 0].all (fun s =>
      s.clock.timerEnabled && ([4, 7] : List Cycles).all fun c =>
        decide (s.clock.timerCounter - c.toNat ≤ 0) &&
          decide (1 ≤ s.clock.timerCounter - c.toNat + s.cfg.timerInterval s.clock.timerSelect)) = true ∧
      (timState true 1 4 0xFF 0xFF 0).clock.timerRegister = 0xFF ∧
      (timState true 1 4 0xFF 0xFF 0).clock.timerModulo = 0xFF := by decide

/-- For DisabledTimerIsFrozen and OnlyWrTacWritesEnableAndSelect: the timer off, and on with one unit to spare. -/
theorem test_witness_timer_off :
    State.reset.clock.timerEnabled = false ∧ (timState true 1 4 0 0 0).clock.timerEnabled = true ∧
      ((3 : Cycles).toNat : Int) < (timState true 1 4 0 0 0).clock.timerCounter := by decide

/-- For ClockIsInvariantUnderPartition and AdvanceIsInvariantUnderSplitting: the largest total, in two parts, and a
transfer in flight at its last byte. -/
theorem test_witness_partition :
    ([0x0FFFFFFE, 1] : List Cycles) ≠ [] ∧
      (0x0FFFFFFF : Cycles).toNat = (([0x0FFFFFFE, 1] : List Cycles).map BitVec.toNat).sum ∧
      (0x0FFFFFFF : Cycles).toNat = (0x0FFFFFFE : Cycles).toNat + (1 : Cycles).toNat ∧
      (dmaState true 0xC000 159).dma.busy = true ∧ (dmaState true 0xC000 159).dma.count < 160 := by decide

/-- For AdvanceZeroChangesNothing, NoRunFromAWellFormedStateFaults and the invariants: a well-formed state in the middle
of a transfer. -/
theorem test_witness_coherent : Coherent (dmaState true 0xC000 159) ∧ WF (dmaState true 0xC000 159) := by decide

/-- For AdvanceFrame, AdvanceCopiesTheNextBytes, IdleDmaDoesNothing and TransferEndsOnlyByCompletionOrRestart: the idle
engine, a transfer at its first and at its last byte, an offset just below and just above the bytes copied, and an
answer. -/
theorem test_witness_dma :
    State.reset.dma.busy = false ∧ (0 : Int) ≤ 0 ∧
      [dmaState true 0xC000 0, dmaState true 0xC000 159].all
        (fun s => s.dma.busy && decide (s.dma.count < 160)) = true ∧
      [9, 15].all (fun off =>
        let s := dmaState true 0xC000 10
        !decide (s.dma.busy = true ∧ s.dma.count ≤ off ∧ off < 160 ∧
          off < s.dma.count + (5 : Cycles).toNat)) = true ∧
      (∃ t, exec (.advance 1) (dmaState true 0xC000 159) = .next t) ∧
      (∃ t, exec (.dmaStart 0) (dmaState true 0xC000 159) = .next t) ∧
      (∃ t, exec (.wrDma 0) (dmaState true 0xC000 159) = .next t) ∧
      (∃ t, exec .rdIf (dmaState true 0xC000 159) = .next t) :=
  ⟨by decide, by decide, by decide, by decide, ⟨_, rfl⟩, ⟨_, rfl⟩, ⟨_, rfl⟩, ⟨_, rfl⟩⟩

/-- For DmaSourceIsWrittenByStartAndCompletion: a budget that completes the transfer and the greatest that does not. -/
theorem test_witness_completion :
    let s := dmaState true 0xC000 10
    (s.dma.busy = true ∧ s.dma.count < 160 ∧ 160 ≤ s.dma.count + (150 : Cycles).toNat) ∧
      ¬ 160 ≤ s.dma.count + (149 : Cycles).toNat ∧ (∃ t, exec (.advance 150) s = .next t) :=
  ⟨by decide, by decide, ⟨_, rfl⟩⟩

/-- For RequestsAndClearsAccumulate: a bit that both masks name. -/
theorem test_witness_masks : (0b00100 : Flags).getLsbD 2 = true := by decide

/-- For FlagsChangeOnlyByTheirProducers: a flag set by each producer and a flag cleared by each way there is. -/
theorem test_witness_producers :
    after [.irqReq 0b00001] (flagState 0) (·.requestFlags.getLsbD 0) = some true ∧
      after [.wrIf 0x10] (flagState 0) (·.requestFlags.getLsbD 4) = some true ∧
      after [.advance 4] (timState true 1 4 0xFF 0 0) (·.requestFlags.getLsbD 2) = some true ∧
      after [.poll 0] (keyState 0x80 3) (·.requestFlags.getLsbD 4) = some true ∧
      after [.irqClr 0b00001] (flagState 0b11111) (·.requestFlags.getLsbD 0) = some false ∧
      after [.wrIf 0x0F] (flagState 0b11111) (·.requestFlags.getLsbD 4) = some false := by decide

/-- For PollIgnoresTheSelectLines: a release of the top key, keys all still held, and a command that is no POLL. -/
theorem test_witness_poll :
    ((keyState 0x80 3).input.previous.getLsbD 7 = true ∧ (0x7F : Byte).getLsbD 7 = false) ∧
      (∀ k, (keyState 0x00 3).input.previous.getLsbD k = true → (0x01 : Byte).getLsbD k = true) ∧
      (∃ t, exec (.wrJoyp 0) (keyState 0x80 3) = .next t) ∧ ∀ keys, Instr.wrJoyp 0 ≠ .poll keys :=
  ⟨by decide, fun k h => by simp [keyState, State.setInput] at h, ⟨_, rfl⟩, by simp⟩

/-- For JoypBitIsZeroIffASelectedKeyIsPressed: the top status bit, with its key pressed in each group. -/
theorem test_witness_joyp_bit :
    3 < 4 ∧ (keyState 0x88 0).input.current.getLsbD (3 + 4) = true ∧
      (keyState 0x88 0).input.current.getLsbD 3 = true := by decide

/-- For OnlyWrTmaWritesTheModulo, OnlyWrTacWritesEnableAndSelect, DivChangesOnlyByAdvanceAndItsWrite and
OnlyPollAndWrJoypWriteJoypadState: an answer of each command they name. -/
theorem test_witness_writers :
    (∃ t, exec (.wrTma 1) State.reset = .next t) ∧ (∃ t, exec (.wrTac 7) State.reset = .next t) ∧
      (∃ t, exec (.wrDiv 1) State.reset = .next t) ∧ (∃ t, exec (.advance 64) State.reset = .next t) ∧
      (∃ t, exec (.poll 1) State.reset = .next t) ∧ (∃ t, exec (.wrJoyp 0) State.reset = .next t) :=
  ⟨⟨_, rfl⟩, ⟨_, rfl⟩, ⟨_, rfl⟩, ⟨_, rfl⟩, ⟨_, rfl⟩, ⟨_, rfl⟩⟩

/-- For CountdownsSurviveRegisterWrites: well-formed states, an enabling TAC value, and budgets just below and at each
remaining countdown. -/
theorem test_witness_countdowns :
    (∃ t, exec (.wrTac 5) State.reset = .next t) ∧ (∀ c, Instr.wrTac 5 ≠ .advance c) ∧
      Coherent (divState 5 0x33) ∧ ((4 : Cycles).toNat : Int) < (divState 5 0x33).clock.dividerCounter ∧
      ((5 : Cycles).toNat : Int) = (divState 5 0x33).clock.dividerCounter ∧
      Coherent (timState false 1 37 0x09 0 0) ∧ (0x05 : Byte).getLsbD 2 = true ∧
      (timState false 1 37 0x09 0 0).clock.timerRegister ≠ 0xFF ∧
      ((36 : Cycles).toNat : Int) < (timState false 1 37 0x09 0 0).clock.timerCounter ∧
      ((37 : Cycles).toNat : Int) = (timState false 1 37 0x09 0 0).clock.timerCounter :=
  ⟨⟨_, rfl⟩, by simp, by decide⟩

/-- For OnlyAdvanceInATransferWritesOam: a command outside its exception, and an ADVANCE 0 in a transfer. -/
theorem test_witness_oam :
    (∃ t, exec (.advance 9) State.reset = .next t) ∧ State.reset.dma.busy = false ∧
      (∃ t, exec (.advance 0) (dmaState true 0xC000 10) = .next t) := ⟨⟨_, rfl⟩, rfl, ⟨_, rfl⟩⟩

/-- For BusReadsHideInternalState. -/
theorem test_witness_bus_reads :
    Instr.rdIf ∈ [.rdJoyp, .rdDiv, .rdTima, .rdTma, .rdTac, .rdIf] := by decide

/-- For EveryStepKeepsTheWellFormedState: a well-formed state with a legal word presented, which steps. -/
theorem test_witness_wf_step :
    WF (presented [0x30000001]) ∧ (presented [0x30000001]).commands = [0x30000001] ∧
      legalWord (presented [0x30000001]).cfg.toConfig 0x30000001 = true ∧
      (∃ t, step (presented [0x30000001]) = .next t) := ⟨by decide, rfl, rfl, ⟨_, rfl⟩⟩

/-- For EveryStepKeepsOamCanonical: a canonical OAM with a byte stored at its last offset, about to be written again. -/
theorem test_witness_oam_wf :
    let s := ((dmaState true 0xC000 159).setOam (Memory.write [] 159 0x12)).setCommands [0x30000001]
    s.oam.wf = true ∧ (∃ t, step s = .next t) := ⟨Memory.write_wf rfl (by decide) _, ⟨_, rfl⟩⟩

end Sys2Proof.Tests
end

/-! Proofs of the statements about single fields of State (10_state.md): what each command does to each part of the
state, said once, and the writers of a field read off from it. -/

namespace Sys2Proof.Machine

/-! ## The fault and the refused mark after the clock half, and what the DMA loop leaves -/

/-- The clock half records no fault. -/
theorem clockAdvance_fault {c : Int} (hc : 0 ≤ c) (s : State) : (clockAdvance c s).fault = s.fault := by
  rw [clockAdvance_frame hc]; rfl

theorem clockAdvance_refused {c : Int} (hc : 0 ≤ c) (s : State) : (clockAdvance c s).refused = s.refused := by
  rw [clockAdvance_frame hc]; rfl

/-- The DMA state after the loop: a count outside the transfer stays; inside it the budget is counted, or completes the
transfer (R141, R142). -/
theorem dmaLoop_dma (n : Nat) (s : State) :
    (dmaLoop n s).dma =
      if s.dma.count < dmaLength then
        if dmaLength ≤ s.dma.count + n then { source := 0x0000, count := 0, busy := false }
        else { s.dma with count := s.dma.count + n }
      else s.dma := by
  by_cases h : s.dma.count < dmaLength
  · rw [if_pos h, dmaLoop_eq n s h]
    by_cases hn : dmaLength ≤ s.dma.count + n
    · rw [if_neg (by omega), if_pos hn]; rfl
    · rw [if_pos (by omega), if_neg hn, dmaCopy_iterate_dma]
  · rw [if_neg h]
    cases n with
    | zero => rfl
    | succ n => rw [dmaLoop_fault n s (by omega)]; rfl

/-- The loop records a fault exactly when it runs from a count outside the transfer (R141, R200). -/
theorem dmaLoop_fault_eq (n : Nat) (s : State) :
    (dmaLoop n s).fault =
      if n ≠ 0 ∧ dmaLength ≤ s.dma.count then some (.dmaCountRange s.dma.count) else s.fault := by
  by_cases h : s.dma.count < dmaLength
  · have hcopy : ∀ k, (dmaCopy^[k] s).fault = s.fault := fun k => by rw [dmaCopy_iterate_frame]; rfl
    rw [if_neg (by omega), dmaLoop_eq n s h]
    split_ifs
    · exact hcopy n
    · exact hcopy _
  · cases n with
    | zero => rfl
    | succ n => rw [dmaLoop_fault n s (by omega), if_pos ⟨n.succ_ne_zero, by omega⟩]; rfl

/-! ## What each command leaves in each part of the state -/

/-- The clock a command leaves. -/
def clockAfter (s : State) : Instr → ClockState
  | .wrDiv _ => { s.clock with dividerRegister := 0x00 }
  | .wrTima d => { s.clock with timerRegister := d }
  | .wrTma d => { s.clock with timerModulo := d }
  | .wrTac d => { s.clock with timerEnabled := tacEnable d, timerSelect := tacSelect d }
  | .advance c => (clockAdvance c.toNat s).clock
  | _ => s.clock

/-- The DMA state a command leaves. -/
def dmaAfter (s : State) : Instr → DmaState
  | .dmaStart src => { source := src, count := 0, busy := true }
  | .wrDma d => { source := pageSource d, count := 0, busy := true }
  | .advance c =>
    if s.dma.busy = true ∧ s.dma.count < dmaLength then
      if dmaLength ≤ s.dma.count + c.toNat then { source := 0x0000, count := 0, busy := false }
      else { s.dma with count := s.dma.count + c.toNat }
    else s.dma
  | _ => s.dma

/-- The request flags a command leaves. -/
def flagsAfter (s : State) : Instr → Flags
  | .irqReq m => s.requestFlags ||| m
  | .irqClr m => s.requestFlags &&& ~~~m
  | .wrIf d => ifFlags d
  | .poll keys =>
    if s.input.previous &&& ~~~keys = 0 then s.requestFlags
    else s.requestFlags ||| flagMask s.cfg.toConfig .joypad
  | .advance c => (clockAdvance c.toNat s).requestFlags
  | _ => s.requestFlags

/-- The fault a command leaves: ADVANCE of a transfer whose count is out of range records one (R200), and no other
command touches it. -/
def faultAfter (s : State) : Instr → Option Fault
  | .advance c =>
    if s.dma.busy = true ∧ c.toNat ≠ 0 ∧ dmaLength ≤ s.dma.count then some (.dmaCountRange s.dma.count)
    else s.fault
  | _ => s.fault

/-- During a transfer ADVANCE leaves the clock half's clock and flags, and the DMA loop's count, source and fault;
outside one it leaves what the clock half does. -/
theorem exec_advance_parts {c : Cycles} {s t : State} (h : exec (.advance c) s = .next t) :
    t.clock = clockAfter s (.advance c) ∧ t.dma = dmaAfter s (.advance c) ∧
      t.requestFlags = flagsAfter s (.advance c) ∧ t.fault = faultAfter s (.advance c) ∧ t.refused = s.refused := by
  have hc : (0 : Int) ≤ c.toNat := by omega
  have hdma := clockAdvance_dma hc s
  have hfault := clockAdvance_fault hc s
  have hrefused := clockAdvance_refused hc s
  rw [exec_advance_eq] at h
  cases h
  by_cases hb : s.dma.busy = true
  · obtain ⟨-, -, hclock, hflags, -, hmark, -⟩ := dmaLoop_frame c.toNat (clockAdvance c.toNat s)
    rw [if_pos hb]
    refine ⟨hclock, ?_, hflags, ?_, hmark.trans hrefused⟩
    · simp only [dmaAfter, hb, true_and, dmaLoop_dma, hdma]
    · simp only [faultAfter, hb, true_and, dmaLoop_fault_eq, hdma, hfault]
  · rw [if_neg hb]
    exact ⟨rfl, by simpa [dmaAfter, hb] using hdma, rfl, by simpa [faultAfter, hb] using hfault, hrefused⟩

/-- What a command leaves in the clock, the DMA state, the flags, the fault and the refused mark. -/
theorem exec_parts {i : Instr} {s t : State} (h : exec i s = .next t) :
    t.clock = clockAfter s i ∧ t.dma = dmaAfter s i ∧ t.requestFlags = flagsAfter s i ∧
      t.fault = faultAfter s i ∧ t.refused = s.refused := by
  cases i with
  | advance c => exact exec_advance_parts h
  | poll keys => cases h; rw [pollKeys_eq]; exact ⟨rfl, rfl, rfl, rfl, rfl⟩
  | _ => cases h; exact ⟨rfl, rfl, rfl, rfl, rfl⟩

section
variable {i : Instr} {s t : State}

theorem exec_clock (h : exec i s = .next t) : t.clock = clockAfter s i := by
  obtain ⟨hclock, -⟩ := exec_parts h
  exact hclock

theorem exec_dma (h : exec i s = .next t) : t.dma = dmaAfter s i := by
  obtain ⟨-, hdma, -⟩ := exec_parts h
  exact hdma

theorem exec_requestFlags (h : exec i s = .next t) : t.requestFlags = flagsAfter s i := by
  obtain ⟨-, -, hflags, -⟩ := exec_parts h
  exact hflags

theorem exec_fault (h : exec i s = .next t) : t.fault = faultAfter s i := by
  obtain ⟨-, -, -, hfault, -⟩ := exec_parts h
  exact hfault

theorem exec_refused (h : exec i s = .next t) : t.refused = s.refused := by
  obtain ⟨-, -, -, -, hrefused⟩ := exec_parts h
  exact hrefused

end

theorem exec_advance_next (c : Cycles) (s : State) : ∃ t, exec (.advance c) s = .next t := ⟨_, rfl⟩

/-! ## The fault and the refused mark (R36) -/

theorem exec_fault_ne_none {i : Instr} {s t : State} (h : exec i s = .next t) (hs : s.fault ≠ none) :
    t.fault ≠ none := by
  rw [exec_fault h]
  cases i with
  | advance c =>
    simp only [faultAfter]
    split_ifs
    · exact Option.some_ne_none _
    · exact hs
  | _ => exact hs

theorem step_keeps_refused {s t : State} (h : step s = .next t) (hs : s.refused = true) : t.refused = true := by
  obtain ⟨-, ⟨-, rfl⟩ | ⟨w, ws, e, -, -, rfl⟩ | ⟨w, ws, i, -, -, hexec⟩⟩ := step_cases h
  · exact hs
  · rfl
  · exact (exec_refused hexec).trans hs

/-- Settles O14: no command touches the mark or clears a fault, and a step adds to that only setting the mark. -/
theorem faultAndRefusedAreNeverCleared : Obligations.FaultAndRefusedAreNeverCleared :=
  ⟨fun _ _ _ h => ⟨exec_fault_ne_none h, fun hs => (exec_refused h).trans hs⟩,
    fun _ _ hs h => hs (step_cases h).1,
    fun _ _ => step_keeps_refused,
    fun _ => ⟨rfl, rfl⟩⟩

/-! ## The timer's modulo, enable and select (R25, R26) -/

/-- A budget that leaves the countdown positive causes no tick. -/
theorem timerTicks_eq_zero {c : Int} {s : State} (h : c < s.clock.timerCounter) : timerTicks c s = 0 :=
  triggerCount_pos (by omega)

/-- A budget that uses the countdown up, but not another interval, causes one tick. -/
theorem timerTicks_eq_one {c : Int} {s : State} (h : s.clock.timerCounter - c ≤ 0)
    (h' : 1 ≤ s.clock.timerCounter - c + s.cfg.timerInterval s.clock.timerSelect) : timerTicks c s = 1 :=
  triggerCount_unique (s.cfg.timerInterval_pos _) h (by simpa using h') (by simpa using h)

/-- One tick from 0xFF reloads TIMA from the modulo (R114). -/
theorem clockAdvance_reloads {c : Int} (hc : 0 ≤ c) {s : State} (hon : s.clock.timerEnabled = true)
    (htima : s.clock.timerRegister = 0xFF) (hticks : timerTicks c s = 1) :
    (clockAdvance c s).clock.timerRegister = s.clock.timerModulo := by
  rw [clockAdvance_clock hc]
  simp only [hon, hticks, if_true, Function.iterate_one, timerTick_register, dividerStep_eq, State.setClock_clock,
    htima]

/-- Settles O43: the modulo is read off from the clock after each command. -/
theorem onlyWrTmaWritesTheModulo : Obligations.OnlyWrTmaWritesTheModulo := by
  refine ⟨fun i s t h => ?_, fun s => ⟨_, rfl, rfl⟩, fun s c hon htima hend hlast => ?_, fun _ => rfl⟩
  · rw [exec_clock h]
    cases i with
    | advance c => simp only [clockAfter, clockAdvance_clock (Int.natCast_nonneg _)]
    | _ => rfl
  · obtain ⟨t, h⟩ := exec_advance_next c s
    refine ⟨t, h, ?_⟩
    rw [exec_clock h]
    exact clockAdvance_reloads (by omega) hon htima (timerTicks_eq_one hend hlast)

/-- Settles O44: enable and select are read off from the clock after each command, and the timer half of ADVANCE
depends on the enable. -/
theorem onlyWrTacWritesEnableAndSelect : Obligations.OnlyWrTacWritesEnableAndSelect := by
  refine ⟨fun i s t h => ?_, fun s c hoff => ?_, fun s c hon hlt => ?_, fun _ => ⟨rfl, rfl⟩⟩
  · rw [exec_clock h]
    cases i with
    | advance c => simp only [clockAfter, clockAdvance_clock (Int.natCast_nonneg _), and_self]
    | _ => exact ⟨rfl, rfl⟩
  · obtain ⟨t, h⟩ := exec_advance_next c s
    refine ⟨t, h, ?_⟩
    rw [exec_clock h]
    simp [clockAfter, clockAdvance_clock, hoff]
  · obtain ⟨t, h⟩ := exec_advance_next c s
    refine ⟨t, h, ?_⟩
    rw [exec_clock h]
    simp [clockAfter, clockAdvance_clock, hon, timerTicks_eq_zero hlt]

/-! ## DIV (R22) -/

/-- A countdown that triggered at all ends at most one interval above 0. -/
theorem triggerCount_end_le {i : Nat} (hi : 0 < i) {d : Int} (h : triggerCount i d ≠ 0) :
    d + triggerCount i d * i ≤ i := by
  have hd : d ≤ 0 := by
    by_contra hpos
    exact h (triggerCount_pos (by omega))
  exact (triggerCount_bounds hi hd).2

/-- Settles O45: `k` is the trigger count of the divider's countdown. -/
theorem divChangesOnlyByAdvanceAndItsWrite : Obligations.DivChangesOnlyByAdvanceAndItsWrite := by
  refine ⟨fun i s t h => ?_, fun s => ⟨_, rfl, rfl⟩, fun _ => rfl⟩
  have hclock := exec_clock h
  cases i with
  | advance c =>
    rw [hclock, clockAfter, clockAdvance_clock (by omega)]
    exact ⟨_, rfl, rfl, triggerCount_end_pos s.cfg.divInterval_pos _, triggerCount_end_le s.cfg.divInterval_pos⟩
  | _ => rw [hclock]; rfl

/-! ## The DMA source (R28) -/

/-- ADVANCE clears the source when the budget completes a transfer, and leaves it otherwise. -/
theorem dmaAfter_advance_source (c : Cycles) (s : State) :
    (dmaAfter s (.advance c)).source =
      if s.dma.busy = true ∧ s.dma.count < dmaLength ∧ dmaLength ≤ s.dma.count + c.toNat then 0x0000
      else s.dma.source := by
  rw [dmaAfter]
  by_cases hrun : s.dma.busy = true ∧ s.dma.count < dmaLength
  · rw [if_pos hrun, apply_ite DmaState.source]
    simp only [hrun, true_and]
  · rw [if_neg hrun, if_neg fun ⟨hb, hn, _⟩ => hrun ⟨hb, hn⟩]

/-- Settles O47: the source is read off from the DMA state after each command. -/
theorem dmaSourceIsWrittenByStartAndCompletion : Obligations.DmaSourceIsWrittenByStartAndCompletion := by
  refine ⟨fun i s t h => ?_, fun _ => rfl⟩
  have hdma := exec_dma h
  cases i with
  | advance c =>
    have hsource := (congrArg DmaState.source hdma).trans (dmaAfter_advance_source c s)
    dsimp only
    split_ifs with hend
    · exact hsource.trans (if_pos hend)
    · exact hsource.trans (if_neg hend)
  | _ => rw [hdma]; rfl

/-! ## The request flags (R45) -/

/-- The mask of a flag has its configured bit alone. -/
theorem getLsbD_flagMask {k : Nat} (hk : k < 5) (c : Config) (f : Flag) :
    (flagMask c f).getLsbD k = decide (k = c.vecBit f) := by
  have hmask : flagMask c f = BitVec.twoPow 5 (c.vecBit f) := rfl
  rw [hmask, BitVec.getLsbD_twoPow, ← Bool.decide_and, decide_eq_decide]
  omega

/-- The one flag that OR-ing in a flag's mask can set is the flag itself. -/
theorem eq_vecBit_of_getLsbD_or_flagMask {k : Nat} (hk : k < 5) {c : Config} {f : Flag} {x : Flags}
    (h : x.getLsbD k = false) (h' : (x ||| flagMask c f).getLsbD k = true) : k = c.vecBit f := by
  simpa [h, getLsbD_flagMask hk] using h'

/-- As long as TIMA does not pass 0xFF, ticks request nothing (R114). -/
theorem timerTick_iterate_flags_of_lt (k : Nat) (s : State) (h : s.clock.timerRegister.toNat + k < 256) :
    (timerTick^[k] s).requestFlags = s.requestFlags := by
  induction k generalizing s with
  | zero => rfl
  | succ k ih =>
    have hne : s.clock.timerRegister ≠ 0xFF := fun heq => by
      rw [heq, show (0xFF : Byte).toNat = 255 from rfl] at h
      omega
    have hreg : (timerTick s).clock.timerRegister = s.clock.timerRegister + 1 := by
      rw [timerTick_register, if_neg hne]
    rw [Function.iterate_succ_apply, ih _ (by rw [hreg]; bv_omega), timerTick_flags, if_neg hne]

/-- The clock half leaves the flags, or its ticks take TIMA past 0xFF and request TIMER. -/
theorem clockAdvance_flags_cases {c : Int} (hc : 0 ≤ c) (s : State) :
    (clockAdvance c s).requestFlags = s.requestFlags ∨
      (s.clock.timerEnabled = true ∧ 256 ≤ s.clock.timerRegister.toNat + timerTicks c s ∧
        (clockAdvance c s).requestFlags = s.requestFlags ||| flagMask s.cfg.toConfig .timer) := by
  have hflags := clockAdvance_flags hc s
  have hbelow := timerTick_iterate_flags_of_lt (timerTicks c s) (dividerStep c s)
  have hticks := timerTick_iterate_flags (timerTicks c s) (dividerStep c s)
  simp only [dividerStep_eq, State.setClock_clock, State.setClock_requestFlags, State.setClock_cfg]
    at hflags hbelow hticks
  by_cases hon : s.clock.timerEnabled = true
  · rw [if_pos hon] at hflags
    by_cases hlt : s.clock.timerRegister.toNat + timerTicks c s < 256
    · exact .inl (hflags.trans (hbelow hlt))
    · rw [hflags]
      exact hticks.imp id fun h => ⟨hon, by omega, h⟩
  · rw [if_neg hon] at hflags
    exact .inl hflags

/-- What sets a flag: the set clause of R45. -/
theorem flag_set_by_producer {i : Instr} {s t : State} {k : Nat} (hk : k < 5) (h : exec i s = .next t)
    (hs : s.requestFlags.getLsbD k = false) (ht : t.requestFlags.getLsbD k = true) :
    (∃ m, i = .irqReq m ∧ m.getLsbD k = true) ∨ (∃ d, i = .wrIf d ∧ d.getLsbD k = true) ∨
      (∃ (c : Cycles) (ticks : Nat), i = .advance c ∧ k = s.cfg.vecTimer ∧ s.clock.timerEnabled = true ∧
        t.clock.timerCounter = s.clock.timerCounter - c.toNat +
          ticks * s.cfg.timerInterval s.clock.timerSelect ∧
        256 ≤ s.clock.timerRegister.toNat + ticks) ∨
      (∃ keys, i = .poll keys ∧ k = s.cfg.vecJoypad ∧ s.input.previous &&& ~~~keys ≠ 0) := by
  rw [exec_requestFlags h] at ht
  cases i with
  | irqReq m => exact .inl ⟨m, rfl, by simpa [flagsAfter, hs] using ht⟩
  | wrIf d => exact .inr (.inl ⟨d, rfl, by simpa [flagsAfter, ifFlags, hk] using ht⟩)
  | irqClr m => simp [flagsAfter, hs] at ht
  | poll keys =>
    rw [flagsAfter] at ht
    split_ifs at ht with hrel
    · simp [hs] at ht
    · exact .inr (.inr (.inr ⟨keys, rfl, eq_vecBit_of_getLsbD_or_flagMask hk hs ht, hrel⟩))
  | advance c =>
    rw [flagsAfter] at ht
    obtain hsame | ⟨hon, hover, hreq⟩ := clockAdvance_flags_cases (c := c.toNat) (by omega) s
    · simp [hsame, hs] at ht
    · rw [hreq] at ht
      have hcounter : t.clock.timerCounter = s.clock.timerCounter - c.toNat +
          timerTicks c.toNat s * s.cfg.timerInterval s.clock.timerSelect := by
        rw [exec_clock h]
        simp [clockAfter, clockAdvance_clock, hon]
      have hbit := eq_vecBit_of_getLsbD_or_flagMask hk hs ht
      exact .inr (.inr (.inl ⟨c, _, rfl, hbit, hon, hcounter, hover⟩))
  | _ => simp [flagsAfter, hs] at ht

/-- What clears a flag: the clear clause of R45. -/
theorem flag_cleared_by_producer {i : Instr} {s t : State} {k : Nat} (hk : k < 5) (h : exec i s = .next t)
    (hs : s.requestFlags.getLsbD k = true) (ht : t.requestFlags.getLsbD k = false) :
    (∃ m, i = .irqClr m ∧ m.getLsbD k = true) ∨ (∃ d, i = .wrIf d ∧ d.getLsbD k = false) := by
  rw [exec_requestFlags h] at ht
  cases i with
  | irqClr m => exact .inl ⟨m, rfl, by simpa [flagsAfter, hs, hk] using ht⟩
  | wrIf d => exact .inr ⟨d, rfl, by simpa [flagsAfter, ifFlags, hk] using ht⟩
  | poll keys =>
    rw [flagsAfter] at ht
    split_ifs at ht <;> simp [hs] at ht
  | advance c =>
    rw [flagsAfter] at ht
    obtain hsame | ⟨-, -, hreq⟩ := clockAdvance_flags_cases (c := c.toNat) (by omega) s
    · simp [hsame, hs] at ht
    · simp [hreq, hs] at ht
  | _ => simp [flagsAfter, hs] at ht

/-- Settles O38: a set flag and a cleared flag each name their producer. -/
theorem flagsChangeOnlyByTheirProducers : Obligations.FlagsChangeOnlyByTheirProducers :=
  fun _ _ _ _ hk h => ⟨flag_set_by_producer hk h, flag_cleared_by_producer hk h⟩

end Sys2Proof.Machine

/-! Proofs of the statements about the opcode map (R79) and the pseudo-instructions (R83): what the decoder answers on
a word of each format (R72 to R77), and on the words the encoder and the assembler write. -/

namespace Sys2Proof

/-! ## The decoder, one equation per format -/

section
variable {c : Config} {w : Word}

/-- A BR word whose reserved bits are zero reads the register at its address, or is refused if there is none (R72). -/
theorem decode_of_read_fields (hcls : clsField w = 0x1) (hrsv : w.extractLsb' 16 12 = 0) :
    decode c w = (c.registerAt (addrField w)).elim (.error .noRegister) (.ok ∘ readOf) := by
  rw [decode, if_pos hcls, decodeRead, if_pos hrsv]
  cases c.registerAt (addrField w) <;> rfl

/-- A BW word whose reserved bits are zero writes the register at its address, or is refused if there is none
(R73). -/
theorem decode_of_write_fields (hcls : clsField w = 0x2) (hrsv : w.extractLsb' 24 4 = 0) :
    decode c w =
      (c.registerAt (addrField w)).elim (.error .noRegister) (.ok ∘ writeOf (dataField w)) := by
  rw [decode, if_neg (by simp [hcls]), if_pos hcls, decodeWrite, if_pos hrsv]
  cases c.registerAt (addrField w) <;> rfl

theorem decode_of_advance_fields (hcls : clsField w = 0x3) : decode c w = .ok (.advance (cyclesField w)) := by
  simp [decode, hcls]

theorem decode_of_poll_fields (hcls : clsField w = 0x4) (hrsv : w.extractLsb' 8 20 = 0) :
    decode c w = .ok (.poll (keysField w)) := by
  simp [decode, hcls, decodePlain, hrsv]

theorem decode_of_irqReq_fields (hcls : clsField w = 0x5) (hrsv : w.extractLsb' 5 23 = 0) :
    decode c w = .ok (.irqReq (maskField w)) := by
  simp [decode, hcls, decodePlain, hrsv]

theorem decode_of_irqClr_fields (hcls : clsField w = 0x6) (hrsv : w.extractLsb' 5 23 = 0) :
    decode c w = .ok (.irqClr (maskField w)) := by
  simp [decode, hcls, decodePlain, hrsv]

theorem decode_of_dmaStart_fields (hcls : clsField w = 0x7) (hrsv : w.extractLsb' 16 12 = 0) :
    decode c w = .ok (.dmaStart (srcField w)) := by
  simp [decode, hcls, decodePlain, hrsv]

end

/-! ## The decoder on the words the encoder writes -/

/-- A field of a word is the value whose number stands in it. -/
theorem extractLsb'_eq_of_toNat {w : Word} {lo n : Nat} {x : BitVec n} (h : w.toNat / 2 ^ lo % 2 ^ n = x.toNat) :
    w.extractLsb' lo n = x :=
  BitVec.eq_of_toNat_eq ((extractLsb'_toNat_div w lo n).trans h)

theorem decode_encodeRead (c : Config) (a : Addr) :
    decode c (encodeRead a) = (c.registerAt a).elim (.error .noRegister) (.ok ∘ readOf) := by
  have hword := encodeRead_toNat a
  have haddr : addrField (encodeRead a) = a := extractLsb'_eq_of_toNat (by omega)
  rw [decode_of_read_fields (extractLsb'_eq_of_toNat (by simp; omega)) (extractLsb'_eq_of_toNat (by simp; omega)),
    haddr]

theorem encodeWrite_fields (a : Addr) (d : Byte) :
    clsField (encodeWrite a d) = 0x2 ∧ (encodeWrite a d).extractLsb' 24 4 = 0 ∧
      dataField (encodeWrite a d) = d ∧ addrField (encodeWrite a d) = a := by
  have hword := encodeWrite_toNat a d
  refine ⟨extractLsb'_eq_of_toNat ?_, extractLsb'_eq_of_toNat ?_, extractLsb'_eq_of_toNat ?_,
    extractLsb'_eq_of_toNat ?_⟩ <;> simp <;> omega

theorem decode_encodeWrite (c : Config) (a : Addr) (d : Byte) :
    decode c (encodeWrite a d) = (c.registerAt a).elim (.error .noRegister) (.ok ∘ writeOf d) := by
  obtain ⟨hcls, hrsv, hdata, haddr⟩ := encodeWrite_fields a d
  rw [decode_of_write_fields hcls hrsv, hdata, haddr]

theorem decode_encode_advance (c : Config) (n : Cycles) : decode c (encode c (.advance n)) = .ok (.advance n) := by
  have hword := encode_advance_toNat c n
  have hcycles : cyclesField (encode c (.advance n)) = n := extractLsb'_eq_of_toNat (by omega)
  rw [decode_of_advance_fields (extractLsb'_eq_of_toNat (by simp; omega)), hcycles]

theorem decode_encode_irqClr (c : Config) (m : Flags) : decode c (encode c (.irqClr m)) = .ok (.irqClr m) := by
  have hword := encode_irqClr_toNat c m
  have hmask : maskField (encode c (.irqClr m)) = m := extractLsb'_eq_of_toNat (by omega)
  rw [decode_of_irqClr_fields (extractLsb'_eq_of_toNat (by simp; omega)) (extractLsb'_eq_of_toNat (by simp; omega)),
    hmask]

/-- The BR word of a register's address reads it. -/
theorem decode_encodeRead_addrOf (c : ValidConfig) (r : BusReg) :
    decode c.toConfig (encodeRead (c.addrOf r)) = .ok (readOf r) := by
  rw [decode_encodeRead, c.registerAt_addrOf]; rfl

/-- The BW word of a register's address writes it. -/
theorem decode_encodeWrite_addrOf (c : ValidConfig) (r : BusReg) (d : Byte) :
    decode c.toConfig (encodeWrite (c.addrOf r) d) = .ok (writeOf d r) := by
  rw [decode_encodeWrite, c.registerAt_addrOf]; rfl

/-! ## The opcode map (R79) -/

/-- One row of the search for the register at an address. -/
theorem Config.find?_addrOf_cons (c : Config) (a : Addr) (r : BusReg) (rs : List BusReg) :
    (r :: rs).find? (fun q => c.addrOf q == a) =
      if a = c.addrOf r then some r else rs.find? fun q => c.addrOf q == a := by
  by_cases h : a = c.addrOf r
  · rw [if_pos h]
    exact List.find?_cons_of_pos (by simpa using h.symm)
  · rw [if_neg h]
    exact List.find?_cons_of_neg (by simpa using Ne.symm h)

/-- The search for the register at an address, written out as the rows of R79's table. -/
theorem Config.registerAt_eq_ite (c : Config) (a : Addr) :
    c.registerAt a =
      if a = c.addrJoyp then some .joyp
      else if a = c.addrDiv then some .div
      else if a = c.addrTima then some .tima
      else if a = c.addrTma then some .tma
      else if a = c.addrTac then some .tac
      else if a = c.addrIf then some .ifReg
      else if a = c.addrDma then some .dma
      else none := by
  simp only [Config.registerAt, BusReg.all, Config.find?_addrOf_cons, List.find?_nil]
  rfl

/-- A word that matches a pattern under a mask has the pattern's value in each field that the mask covers. -/
theorem extractLsb'_of_matches {w mask pattern : Word} {lo n : Nat} (h : w &&& mask = pattern)
    (hmask : mask.extractLsb' lo n = BitVec.allOnes n) : w.extractLsb' lo n = pattern.extractLsb' lo n := by
  rw [← h, BitVec.extractLsb'_and, hmask, BitVec.and_allOnes]

/-- A word that matches a register's BW row under its mask writes the register. -/
theorem decode_of_matches_write (c : ValidConfig) (r : BusReg) {w : Word}
    (h : w &&& 0xFF00FFFF = encodeWrite (c.addrOf r) 0) :
    decode c.toConfig w = .ok (writeOf (dataField w) r) := by
  obtain ⟨hcls, hrsv, -, haddr⟩ := encodeWrite_fields (c.addrOf r) 0
  have haddr' : addrField w = c.addrOf r := (extractLsb'_of_matches h (by decide)).trans haddr
  rw [decode_of_write_fields ((extractLsb'_of_matches h (by decide)).trans hcls)
    ((extractLsb'_of_matches h (by decide)).trans hrsv), haddr', c.registerAt_addrOf]
  rfl

section
variable (c : Config) {w : Word}

theorem decode_of_matches_advance (h : w &&& 0xF0000000 = 0x30000000) :
    decode c w = .ok (.advance (cyclesField w)) :=
  decode_of_advance_fields (extractLsb'_of_matches h (by decide))

theorem decode_of_matches_poll (h : w &&& 0xFFFFFF00 = 0x40000000) : decode c w = .ok (.poll (keysField w)) :=
  decode_of_poll_fields (extractLsb'_of_matches h (by decide)) (extractLsb'_of_matches h (by decide))

theorem decode_of_matches_irqReq (h : w &&& 0xFFFFFFE0 = 0x50000000) : decode c w = .ok (.irqReq (maskField w)) :=
  decode_of_irqReq_fields (extractLsb'_of_matches h (by decide)) (extractLsb'_of_matches h (by decide))

theorem decode_of_matches_irqClr (h : w &&& 0xFFFFFFE0 = 0x60000000) : decode c w = .ok (.irqClr (maskField w)) :=
  decode_of_irqClr_fields (extractLsb'_of_matches h (by decide)) (extractLsb'_of_matches h (by decide))

theorem decode_of_matches_dmaStart (h : w &&& 0xFFFF0000 = 0x70000000) : decode c w = .ok (.dmaStart (srcField w)) :=
  decode_of_dmaStart_fields (extractLsb'_of_matches h (by decide)) (extractLsb'_of_matches h (by decide))

end

/-- Settles O2: a bus word of any address decodes by the search for its register, and a word that matches a row holds
the row's values in every field but the operand's. -/
theorem opcodeMapDecodesEveryRow : Obligations.OpcodeMapDecodesEveryRow := by
  refine ⟨fun c a => ?_, fun c a d => ?_, fun w => ?_⟩
  · refine (decode_encodeRead c.toConfig a).trans ?_
    rw [c.registerAt_eq_ite]
    split_ifs <;> rfl
  · refine (decode_encodeWrite c.toConfig a d).trans ?_
    rw [c.registerAt_eq_ite]
    split_ifs <;> rfl
  · have hread (r : BusReg) (h : w = encodeRead (ValidConfig.standard.addrOf r)) :
        decode ValidConfig.standard.toConfig w = .ok (readOf r) := h ▸ decode_encodeRead_addrOf _ r
    have hwrite (r : BusReg) := decode_of_matches_write ValidConfig.standard r (w := w)
    exact ⟨hread .joyp, hwrite .joyp, hread .div, hwrite .div, hread .tima, hwrite .tima, hread .tma, hwrite .tma,
      hread .tac, hwrite .tac, hread .ifReg, hwrite .ifReg, hread .dma, hwrite .dma, decode_of_matches_advance _,
      decode_of_matches_poll _, decode_of_matches_irqReq _, decode_of_matches_irqClr _, decode_of_matches_dmaStart _⟩

end Sys2Proof

namespace Sys2Proof.Machine

/-! ## The pseudo-instructions (R83) -/

/-- A well-formed line decodes to what the commands of its expansion decode to. -/
theorem decode_assembleLine (c : Config) {l : AsmLine} (h : l.wellFormed = true) :
    (assembleLine c l).map (List.map (decode c)) =
      some ((expandLine l).map fun k => decode c (assembleCommand c k)) := by
  rw [assembleLine, if_pos h, Option.map_some, List.map_map]; rfl

/-- A pseudo-instruction that stands for one write of a register decodes to the write. -/
theorem decode_assembleLine_wr (c : ValidConfig) (r : BusReg) (d : Byte) {l : AsmLine} (h : l.wellFormed = true)
    (hexpand : expandLine l = [.wr (.name r) d.toNat]) :
    (assembleLine c.toConfig l).map (List.map (decode c.toConfig)) = some [.ok (writeOf d r)] := by
  rw [decode_assembleLine c.toConfig h, hexpand, List.map_singleton, assembleCommand, BitVec.ofNat_toNat,
    BitVec.setWidth_eq, regOperandAddr, decode_encodeWrite_addrOf]

/-- `irq.ack` of a mask clears the mask. -/
theorem decode_assembleLine_irqAck (c : Config) (m : Flags) :
    (assembleLine c (.irqAck m.toNat)).map (List.map (decode c)) = some [.ok (.irqClr m)] := by
  rw [decode_assembleLine c (l := .irqAck _) (decide_eq_true m.isLt), expandLine, List.map_singleton,
    assembleCommand, BitVec.ofNat_toNat, BitVec.setWidth_eq, decode_encode_irqClr]

/-- `adv.long n` is full advances and one for the remainder. -/
theorem decode_assembleLine_advLong (c : Config) {n : Nat} (h : 2 ^ 28 ≤ n) :
    (assembleLine c (.advLong n)).map (List.map (decode c)) =
      some (List.replicate (n / 0x0FFFFFFF) (.ok (.advance 0x0FFFFFFF)) ++
        [.ok (.advance (BitVec.ofNat 28 (n % 0x0FFFFFFF)))]) := by
  have hadv (k : Nat) : decode c (assembleCommand c (.adv k)) = .ok (.advance (BitVec.ofNat 28 k)) :=
    decode_encode_advance c _
  rw [decode_assembleLine c (l := .advLong n) (decide_eq_true h), expandLine, List.map_append, List.map_replicate,
    List.map_singleton, hadv, hadv]
  rfl

/-- The data byte of `timer.start` is the enable bit with the select (R83). -/
theorem toNat_enable_or_select (sel : BitVec 2) : (0x04 ||| sel.setWidth 8 : Byte).toNat = 0x04 ||| sel.toNat := by
  rw [BitVec.toNat_or, BitVec.toNat_setWidth_of_le (by decide)]; rfl

/-- Settles O7: each expansion is one register write, one clear, or advances, and each of these words decodes to the
command it was assembled from. -/
theorem pseudoInstructionsExpand : Obligations.PseudoInstructionsExpand := by
  intro c
  refine ⟨decode_assembleLine_wr c .div 0x00 rfl rfl, fun sel => ?_, decode_assembleLine_wr c .tac 0x00 rfl rfl,
    fun p => decode_assembleLine_wr c .dma p (decide_eq_true p.isLt) rfl,
    decode_assembleLine_wr c .joyp 0x20 rfl rfl, decode_assembleLine_wr c .joyp 0x10 rfl rfl,
    decode_assembleLine_wr c .joyp 0x00 rfl rfl, decode_assembleLine_wr c .joyp 0x30 rfl rfl,
    decode_assembleLine_irqAck c.toConfig, fun n hn => ?_⟩
  · refine decode_assembleLine_wr c .tac (0x04 ||| sel.setWidth 8) (decide_eq_true sel.isLt) ?_
    rw [toNat_enable_or_select, expandLine]
  · have hlast : (BitVec.ofNat 28 (n % 0x0FFFFFFF)).toNat = n % 0x0FFFFFFF := by
      rw [BitVec.toNat_ofNat]; omega
    exact ⟨_, hlast, decode_assembleLine_advLong c.toConfig hn, by rw [hlast]; exact Nat.div_add_mod' ..⟩

end Sys2Proof.Machine

namespace Sys2Proof.Machine

/-! ## The step (R100) -/

section
variable {s : State}

theorem step_of_fault {r : Fault} (h : s.fault = some r) : step s = .fault r := by
  rw [step, h]

variable {w : Word} {ws : List Word} (hfault : s.fault = none) (hcommands : s.commands = w :: ws)
include hfault hcommands

theorem step_of_refused_word {e : DecodeRefusal} (h : decode s.cfg.toConfig w = .error e) :
    step s = .next (s.setCommands ws).refuse := by
  simp [step, takeCommand, hfault, hcommands, h]

theorem step_of_command {i : Instr} (h : decode s.cfg.toConfig w = .ok i) : step s = exec i (s.setCommands ws) := by
  simp [step, takeCommand, hfault, hcommands, h]

end

/-! ## What a command yields (R100) -/

/-- The byte a command yields: a bus read its register's value, every other command none. -/
def yielded (s : State) : Instr → Option Byte
  | .rdJoyp => some (joypValue s)
  | .rdDiv => some s.clock.dividerRegister
  | .rdTima => some s.clock.timerRegister
  | .rdTma => some s.clock.timerModulo
  | .rdTac => some (tacValue s)
  | .rdIf => some (ifValue s)
  | .rdDma => some (dmaRegisterValue s)
  | _ => none

/-- The commands that yield a byte are the seven bus reads. -/
theorem isSome_yielded (s : State) (i : Instr) :
    (yielded s i).isSome ↔ i ∈ [.rdJoyp, .rdDiv, .rdTima, .rdTma, .rdTac, .rdIf, .rdDma] := by
  cases i <;> simp [yielded]

/-- ADVANCE yields nothing: neither its clock half nor its DMA half touches the bus-read results. -/
theorem exec_advance_busReads {c : Cycles} {s t : State} (h : exec (.advance c) s = .next t) :
    t.record.busReads = s.record.busReads := by
  have hclock : (clockAdvance c.toNat s).record = s.record := by rw [clockAdvance_frame (by omega)]; rfl
  rw [exec_advance_eq] at h
  cases h
  split_ifs
  · obtain ⟨-, -, -, -, -, -, hdma⟩ := dmaLoop_frame c.toNat (clockAdvance c.toNat s)
    rw [hdma, hclock]
  · rw [hclock]

/-- A command appends what it yields to the bus-read results. -/
theorem exec_busReads {i : Instr} {s t : State} (h : exec i s = .next t) :
    t.record.busReads = s.record.busReads ++ (yielded s i).toList := by
  cases i with
  | advance c => exact (exec_advance_busReads h).trans (List.append_nil _).symm
  | poll keys => cases h; rw [pollKeys_eq]; exact (List.append_nil _).symm
  | rdJoyp | rdDiv | rdTima | rdTma | rdTac | rdIf | rdDma => cases h; rfl
  | _ => cases h; exact (List.append_nil _).symm

/-- Settles O8: the three branches of the step, and a command appends to the bus-read results what it yields, which is
a byte exactly for the seven bus reads. -/
theorem stepRunsTheDecodedCommand : Obligations.StepRunsTheDecodedCommand := by
  refine ⟨fun _ _ => step_of_fault, fun _ _ _ hfault hcommands =>
    ⟨fun _ => step_of_refused_word hfault hcommands, fun _ => step_of_command hfault hcommands⟩, fun i s t h => ?_⟩
  rw [exec_busReads h]
  split_ifs with hi
  · obtain ⟨v, hv⟩ := Option.isSome_iff_exists.mp ((isSome_yielded s i).mpr hi)
    exact ⟨v, by rw [hv]; rfl⟩
  · have hnone : yielded s i = none := Option.not_isSome_iff_eq_none.mp (mt (isSome_yielded s i).mp hi)
    rw [hnone]; exact List.append_nil _

end Sys2Proof.Machine

/-! Proofs of the statements about the clock (41_clock.md): its four registers on the bus, the tick of the timer, and
the timer while it is disabled. -/

namespace Sys2Proof.Machine

/-! ## Commands performed in a row -/

theorem perform_cons_of_next {i : Instr} {s t : State} (is : List Instr) (h : exec i s = .next t) :
    perform (i :: is) s = perform is t := by
  rw [perform, h]

/-! ## The timer half of ADVANCE, field by field

The divider touches none of the fields that a tick reads or writes, so the ticks of an ADVANCE are ticks from the state
it starts in. -/

theorem dividerStep_timerRegister (c : Int) (s : State) :
    (dividerStep c s).clock.timerRegister = s.clock.timerRegister := by
  rw [dividerStep_eq]; rfl

theorem timerTick_dividerStep_commute (c : Int) : Function.Commute timerTick (dividerStep c) := fun s => by
  have hreg := dividerStep_timerRegister c s
  by_cases h : s.clock.timerRegister = 0xFF
  · rw [timerTick, timerTick, if_pos (hreg.trans h), if_pos h, dividerStep_eq, dividerStep_eq]
    rfl
  · rw [timerTick, timerTick, if_neg (hreg.trans_ne h), if_neg h, dividerStep_eq, dividerStep_eq]
    rfl

theorem timerTick_iterate_dividerStep (k : Nat) (c : Int) (s : State) :
    timerTick^[k] (dividerStep c s) = dividerStep c (timerTick^[k] s) :=
  (timerTick_dividerStep_commute c).iterate_left k s

/-- An enabled timer's TIMA after the clock half is TIMA after its ticks. -/
theorem clockAdvance_timerRegister {c : Int} (hc : 0 ≤ c) {s : State} (hon : s.clock.timerEnabled = true) :
    (clockAdvance c s).clock.timerRegister = (timerTick^[timerTicks c s] s).clock.timerRegister := by
  rw [clockAdvance_clock hc, timerTick_iterate_dividerStep, dividerStep_eq]
  exact if_pos hon

/-- The flags after the clock half of an enabled timer are the flags after its ticks. -/
theorem clockAdvance_requestFlags {c : Int} (hc : 0 ≤ c) {s : State} (hon : s.clock.timerEnabled = true) :
    (clockAdvance c s).requestFlags = (timerTick^[timerTicks c s] s).requestFlags := by
  rw [clockAdvance_flags hc, timerTick_iterate_dividerStep, dividerStep_eq]
  exact if_pos hon

/-- What ADVANCE leaves in TIMA and in the flags while the timer is enabled. -/
theorem exec_advance_enabled {c : Cycles} {s t : State} (h : exec (.advance c) s = .next t)
    (hon : s.clock.timerEnabled = true) :
    t.clock.timerRegister = (timerTick^[timerTicks c.toNat s] s).clock.timerRegister ∧
      t.requestFlags = (timerTick^[timerTicks c.toNat s] s).requestFlags := by
  rw [exec_clock h, exec_requestFlags h]
  exact ⟨clockAdvance_timerRegister (by omega) hon, clockAdvance_requestFlags (by omega) hon⟩

/-! ## The tick (R114) -/

theorem timerTicks_ne_zero {c : Int} {s : State} (h : s.clock.timerCounter - c ≤ 0) : timerTicks c s ≠ 0 := by
  rw [timerTicks, triggerCount_step (s.cfg.timerInterval_pos _) h]
  exact Nat.succ_ne_zero _

theorem request_request (mask : Flags) (s : State) : request mask (request mask s) = request mask s := by
  simp only [request, State.setFlags_requestFlags, State.setFlags_setFlags, BitVec.or_assoc, BitVec.or_self]

section
variable {s : State} (htima : s.clock.timerRegister = 0xFF) (htma : s.clock.timerModulo = 0xFF)
include htima htma

/-- With TIMA and TMA both 0xFF a tick is a request of TIMER: the reload stores what TIMA holds. -/
theorem timerTick_eq_request : timerTick s = request (flagMask s.cfg.toConfig .timer) s := by
  have hreload : { s.clock with timerRegister := s.clock.timerModulo } = s.clock := by rw [htma, ← htima]
  rw [timerTick, if_pos htima, hreload, State.setClock_self]

/-- With TIMA and TMA both 0xFF every tick overflows, and further ticks add nothing to the first. -/
theorem timerTick_iterate_succ_eq_request (k : Nat) :
    timerTick^[k + 1] s = request (flagMask s.cfg.toConfig .timer) s := by
  induction k with
  | zero => exact timerTick_eq_request htima htma
  | succ k ih =>
    rw [Function.iterate_succ_apply', ih]
    exact (timerTick_eq_request (s := request _ s) htima htma).trans (request_request _ s)

end

/-- Settles O22: the ticks of an ADVANCE are one tick, or any number of them each of which only requests TIMER. -/
theorem timerTickIncrementsOrReloads : Obligations.TimerTickIncrementsOrReloads := by
  refine ⟨fun s c hon hend hlast => ?_, fun s c hon htima htma => ?_⟩
  · obtain ⟨t, h⟩ := exec_advance_next c s
    obtain ⟨hreg, hflags⟩ := exec_advance_enabled h hon
    rw [timerTicks_eq_one hend hlast, Function.iterate_one] at hreg hflags
    refine ⟨t, h, ?_⟩
    rw [hreg, hflags, timerTick_register, timerTick_flags]
    split_ifs <;> exact ⟨rfl, rfl⟩
  · obtain ⟨t, h⟩ := exec_advance_next c s
    obtain ⟨hreg, hflags⟩ := exec_advance_enabled h hon
    refine ⟨t, h, ?_⟩
    rw [hreg, hflags]
    cases hticks : timerTicks c.toNat s with
    | zero => exact ⟨htima, fun hend => absurd hticks (timerTicks_ne_zero hend)⟩
    | succ k =>
      rw [timerTick_iterate_succ_eq_request htima htma]
      exact ⟨htima, fun _ => rfl⟩

/-! ## The timer while it is disabled (R115) -/

/-- The clock half of a disabled timer is its divider step. -/
theorem clockAdvance_disabled {c : Int} (hc : 0 ≤ c) {s : State} (hoff : s.clock.timerEnabled = false) :
    clockAdvance c s = dividerStep c s := by
  rw [clockAdvance_eq hc, timerStep, dividerStep_eq]
  exact if_neg (by simp [hoff])

/-- The divider after ADVANCE is the one its divider step leaves, whatever the timer does. -/
theorem exec_advance_divider {c : Cycles} {s t : State} (h : exec (.advance c) s = .next t) :
    t.clock.dividerCounter = (dividerStep c.toNat s).clock.dividerCounter ∧
      t.clock.dividerRegister = (dividerStep c.toNat s).clock.dividerRegister := by
  rw [exec_clock h, clockAfter, clockAdvance_clock (by omega), dividerStep_eq]
  exact ⟨rfl, rfl⟩

/-- Settles O23: a disabled timer leaves ADVANCE its divider step, and no divider step reads the enable. -/
theorem disabledTimerIsFrozen : Obligations.DisabledTimerIsFrozen := by
  refine ⟨fun s c hoff => ?_, fun s c b => ?_⟩
  · obtain ⟨t, h⟩ := exec_advance_next c s
    refine ⟨t, h, ?_⟩
    rw [exec_clock h, exec_requestFlags h, clockAfter, flagsAfter, clockAdvance_disabled (by omega) hoff,
      dividerStep_eq]
    exact ⟨rfl, rfl, rfl⟩
  · obtain ⟨t, ht⟩ := exec_advance_next c s
    obtain ⟨u, hu⟩ := exec_advance_next c (s.setClock { s.clock with timerEnabled := b })
    obtain ⟨htcounter, htreg⟩ := exec_advance_divider ht
    obtain ⟨hucounter, hureg⟩ := exec_advance_divider hu
    refine ⟨t, u, ht, hu, ?_⟩
    rw [htcounter, htreg, hucounter, hureg, dividerStep_eq, dividerStep_eq]
    exact ⟨rfl, rfl⟩

/-! ## The four registers on the bus (R120 to R127) -/

/-- A register's BR word decodes to its read, and its BW word of any data byte to its write (R79). -/
theorem decode_bus_words (c : ValidConfig) (r : BusReg) :
    decode c.toConfig (encodeRead (c.addrOf r)) = .ok (readOf r) ∧
      ∀ d, decode c.toConfig (encodeWrite (c.addrOf r) d) = .ok (writeOf d r) :=
  ⟨decode_encodeRead_addrOf c r, decode_encodeWrite_addrOf c r⟩

/-- Settles O16: RD_DIV and WR_DIV are one update each, and the words are those of the register DIV. -/
theorem divReadYieldsAndWriteClears : Obligations.DivReadYieldsAndWriteClears :=
  ⟨fun _ => rfl, fun _ _ => rfl, fun c => decode_bus_words c .div, rfl⟩

/-- Settles O17: RD_TIMA and WR_TIMA are one update each, and the words are those of the register TIMA. -/
theorem timaReadYieldsAndWriteStores : Obligations.TimaReadYieldsAndWriteStores :=
  ⟨fun _ => rfl, fun _ _ => rfl, fun c => decode_bus_words c .tima, rfl⟩

/-- One tick from TIMA 0xFF after a write of TMA reloads the byte written (R125). -/
theorem perform_wrTma_advance_reloads {s : State} (d : Byte) {c : Cycles} (hon : s.clock.timerEnabled = true)
    (htima : s.clock.timerRegister = 0xFF) (hticks : timerTicks c.toNat s = 1) :
    ∃ t, perform [.wrTma d, .advance c] s = .next t ∧ t.clock.timerRegister = d := by
  obtain ⟨t, h⟩ := exec_advance_next c (s.setClock { s.clock with timerModulo := d })
  refine ⟨t, (perform_cons_of_next _ rfl).trans (perform_cons_of_next [] h), ?_⟩
  rw [exec_clock h]
  exact clockAdvance_reloads (by omega) hon htima hticks

/-- Settles O18: RD_TMA and WR_TMA are one update each, and a tick of the state WR_TMA leaves reloads its data. -/
theorem tmaReadYieldsAndWriteStores : Obligations.TmaReadYieldsAndWriteStores :=
  ⟨fun _ => rfl, fun _ _ => rfl,
    fun _ d _ hon htima hend hlast => perform_wrTma_advance_reloads d hon htima (timerTicks_eq_one hend hlast),
    fun c => decode_bus_words c .tma, rfl⟩

/-- The byte of TAC with its enable bit written as a case split (R126). -/
theorem tacValue_eq (s : State) :
    tacValue s =
      (s.cfg.tacHigh ++ (if s.clock.timerEnabled then 1#1 else 0#1) ++ s.clock.timerSelect :
        BitVec (5 + 1 + 2)) := by
  rw [tacValue]
  cases s.clock.timerEnabled <;> rfl

/-- Settles O19: RD_TAC yields the byte of TAC, WR_TAC is one update of enable and select, and the interval is a lookup
by the select. -/
theorem tacReadYieldsAndWriteStores : Obligations.TacReadYieldsAndWriteStores := by
  refine ⟨fun s => ?_, fun _ _ => rfl, fun _ => ⟨rfl, rfl, rfl, rfl⟩, fun c => decode_bus_words c .tac, rfl⟩
  rw [← tacValue_eq]
  rfl

end Sys2Proof.Machine

/-! Proofs of the statements about the DMA engine (42_dma.md): a start, a read of the DMA register, and what the DMA
half of ADVANCE touches. -/

namespace Sys2Proof

/-- The word of a direct start decodes to it (R77). -/
theorem decode_encode_dmaStart (c : Config) (src : Addr) :
    decode c (encode c (.dmaStart src)) = .ok (.dmaStart src) := by
  have hword := encode_dmaStart_toNat c src
  have hsrc : srcField (encode c (.dmaStart src)) = src := extractLsb'_eq_of_toNat (by omega)
  rw [decode_of_dmaStart_fields (extractLsb'_eq_of_toNat (by simp; omega)) (extractLsb'_eq_of_toNat (by simp; omega)),
    hsrc]

end Sys2Proof

namespace Sys2Proof.Machine

/-! ## What the DMA half touches -/

/-- The DMA half leaves the request flags and the bus-read results, on any budget and even when it faults (R147). -/
theorem dmaAdvance_flags_busReads (c : Int) (s : State) :
    (dmaAdvance c s).requestFlags = s.requestFlags ∧ (dmaAdvance c s).record.busReads = s.record.busReads := by
  by_cases hc : c < 0
  · rw [dmaAdvance, if_pos hc]; exact ⟨rfl, rfl⟩
  · rw [dmaAdvance_eq (by omega)]
    split_ifs
    · obtain ⟨-, -, -, hflags, -, -, hreads⟩ := dmaLoop_frame c.toNat s
      exact ⟨hflags, hreads⟩
    · exact ⟨rfl, rfl⟩

/-- The DMA half on an idle engine is the identity (R143). -/
theorem dmaAdvance_idle {c : Int} (hc : 0 ≤ c) {s : State} (hb : s.dma.busy = false) : dmaAdvance c s = s := by
  rw [dmaAdvance_eq hc, if_neg (by simp [hb])]

/-- The DMA loop leaves the OAM bytes below its count, and those its budget does not reach (R141). -/
theorem dmaLoop_read_of_not_reached {off : Nat} (n : Nat) (s : State)
    (h : off < s.dma.count ∨ s.dma.count + n ≤ off) : (dmaLoop n s).oam.read off = s.oam.read off := by
  induction n generalizing s with
  | zero => rfl
  | succ n ih =>
    have hcopy : (dmaCopy s).oam.read off = s.oam.read off := Memory.read_write_other _ _ (by omega)
    unfold dmaLoop
    split_ifs
    · rfl
    · exact hcopy
    · exact (ih _ (by rw [dmaCopy_count]; omega)).trans hcopy

/-! ## The clock half beside the DMA engine -/

/-- A timer tick neither reads nor writes the DMA state. -/
theorem timerTick_setDma_commute (d : DmaState) : Function.Commute timerTick (State.setDma · d) := fun s => by
  show timerTick (s.setDma d) = (timerTick s).setDma d
  rw [timerTick, timerTick, State.setDma_clock]
  split_ifs <;> rfl

theorem dividerStep_setDma (c : Int) (s : State) (d : DmaState) :
    dividerStep c (s.setDma d) = (dividerStep c s).setDma d := by
  rw [dividerStep_eq, dividerStep_eq]; rfl

/-- The flags after the clock half do not depend on the DMA state (R147). -/
theorem clockAdvance_flags_setDma {c : Int} (hc : 0 ≤ c) (s : State) (d : DmaState) :
    (clockAdvance c (s.setDma d)).requestFlags = (clockAdvance c s).requestFlags := by
  have hcount : timerTicks c (s.setDma d) = timerTicks c s := rfl
  have hticks := (timerTick_setDma_commute d).iterate_left (timerTicks c s) (dividerStep c s)
  rw [clockAdvance_flags hc, clockAdvance_flags hc, hcount, dividerStep_setDma, hticks]
  rfl

/-! ## OAM after a command -/

/-- No command but ADVANCE writes OAM (R56). -/
theorem exec_oam {i : Instr} {s t : State} (h : exec i s = .next t) (hi : ∀ c, i ≠ .advance c) : t.oam = s.oam := by
  cases i with
  | advance c => exact absurd rfl (hi c)
  | poll keys => cases h; rw [pollKeys_eq]; rfl
  | _ => cases h; rfl

/-- ADVANCE leaves the OAM bytes below the count, and those its budget does not reach. -/
theorem exec_advance_read_of_not_reached {c : Cycles} {s t : State} {off : Nat} (h : exec (.advance c) s = .next t)
    (hoff : off < s.dma.count ∨ s.dma.count + c.toNat ≤ off) : t.oam.read off = s.oam.read off := by
  have hoam : (clockAdvance c.toNat s).oam = s.oam := by rw [clockAdvance_frame (by omega)]; rfl
  rw [exec_advance_eq] at h
  cases h
  split_ifs
  · rw [dmaLoop_read_of_not_reached _ _ (by rwa [clockAdvance_dma (by omega)]), hoam]
  · rw [hoam]

/-! ## The statements -/

/-- Settles O33: the DMA half of an idle engine is the identity, and the clock half touches none of the three. -/
theorem idleDmaDoesNothing : Obligations.IdleDmaDoesNothing := by
  refine ⟨fun _ _ hc => dmaAdvance_idle hc, fun s c hb => ⟨_, exec_advance_idle c s hb, ?_⟩⟩
  rw [clockAdvance_frame (by omega)]
  exact ⟨rfl, rfl, rfl⟩

/-- Settles O34: the flags an ADVANCE leaves are those of its clock half, which does not read the DMA state. -/
theorem dmaRequestsNoInterrupt : Obligations.DmaRequestsNoInterrupt := by
  refine ⟨fun s c => (dmaAdvance_flags_busReads c s).1, fun s c d => ?_⟩
  obtain ⟨t, ht⟩ := exec_advance_next c s
  obtain ⟨u, hu⟩ := exec_advance_next c (s.setDma d)
  refine ⟨t, u, ht, hu, ?_⟩
  rw [exec_requestFlags ht, exec_requestFlags hu]
  exact (clockAdvance_flags_setDma (by omega) s d).symm

/-- Settles O35: the DMA state is read off from what each command leaves in it, and only ADVANCE writes OAM, at the
count and above. -/
theorem transferEndsOnlyByCompletionOrRestart : Obligations.TransferEndsOnlyByCompletionOrRestart := by
  refine ⟨fun i s t hb hn h => ?_, fun s _ c _ _ h => h ▸ dmaAdvance_flags_busReads c s⟩
  have hdma := exec_dma h
  cases i with
  | advance c =>
    refine ⟨?_, fun off hoff => exec_advance_read_of_not_reached h (.inl hoff)⟩
    rw [dmaAfter, if_pos ⟨hb, hn⟩] at hdma
    split_ifs with hend
    · exact hdma.trans (if_pos hend)
    · exact hdma.trans (if_neg hend)
  | _ => exact ⟨hdma, exec_oam h nofun⟩

/-- A DMA page as a source address is the page times 256 (R145). -/
theorem pageSource_eq (d : Byte) : pageSource d = BitVec.ofNat 16 (d.toNat * 256) := by
  apply BitVec.eq_of_toNat_eq
  rw [pageSource, toNat_append_add, BitVec.toNat_ofNat]
  simp; omega

/-- Settles O29: both commands are one update of the DMA state, and the words are those of DS and of the register
DMA. -/
theorem dmaStartAndPageWriteBeginATransfer : Obligations.DmaStartAndPageWriteBeginATransfer :=
  ⟨fun _ _ => rfl, fun _ d => pageSource_eq d ▸ rfl, fun c => decode_encode_dmaStart c.toConfig,
    fun c => decode_encodeWrite_addrOf c .dma, rfl⟩

/-- Settles O30: the byte is the free value of the register at this read, and the word is that of the register DMA. -/
theorem dmaRegisterReadYieldsSomeByte : Obligations.DmaRegisterReadYieldsSomeByte :=
  ⟨fun s => ⟨dmaRegisterValue s, rfl⟩, fun c => decode_encodeRead_addrOf c .dma, rfl⟩

end Sys2Proof.Machine

/-! Proofs of the statements about the interrupt request register (43_interrupts.md). -/

namespace Sys2Proof

/-- The word of a request decodes to it (R76). -/
theorem decode_encode_irqReq (c : Config) (m : Flags) : decode c (encode c (.irqReq m)) = .ok (.irqReq m) := by
  have hword := encode_irqReq_toNat c m
  have hmask : maskField (encode c (.irqReq m)) = m := extractLsb'_eq_of_toNat (by omega)
  rw [decode_of_irqReq_fields (extractLsb'_eq_of_toNat (by simp; omega)) (extractLsb'_eq_of_toNat (by simp; omega)),
    hmask]

end Sys2Proof

namespace Sys2Proof.Machine

/-- Settles O36: each of the four commands is one update, and the words are those of IQ (R76) and of the register
IF. -/
theorem flagCommandsSetClearReadAndStore : Obligations.FlagCommandsSetClearReadAndStore :=
  ⟨fun _ _ => rfl, fun _ _ => rfl, fun _ => rfl, fun _ _ => rfl,
    fun c => ⟨decode_encode_irqReq c.toConfig, decode_encode_irqClr c.toConfig, decode_bus_words c .ifReg⟩, rfl⟩

end Sys2Proof.Machine

/-! Proofs of the statements about the joypad (44_joypad.md): the release edge of POLL, and the JOYP register. -/

namespace Sys2Proof

/-- The word of a poll decodes to it (R75). -/
theorem decode_encode_poll (c : Config) (keys : Byte) : decode c (encode c (.poll keys)) = .ok (.poll keys) := by
  have hword := encode_poll_toNat c keys
  have hkeys : keysField (encode c (.poll keys)) = keys := extractLsb'_eq_of_toNat (by omega)
  rw [decode_of_poll_fields (extractLsb'_eq_of_toNat (by simp; omega)) (extractLsb'_eq_of_toNat (by simp; omega)),
    hkeys]

end Sys2Proof

namespace Sys2Proof.Machine

/-! ## The release edge (R180, R181) -/

/-- The released mask is empty exactly when every key pressed before is still pressed. -/
theorem released_eq_zero_iff (previous keys : Byte) :
    previous &&& ~~~keys = 0 ↔ ∀ k, previous.getLsbD k = true → keys.getLsbD k = true := by
  constructor
  · intro hzero k hk
    have hbit : (previous &&& ~~~keys).getLsbD k = false := by rw [hzero]; exact BitVec.getLsbD_zero
    simpa [hk, BitVec.lt_of_getLsbD hk] using hbit
  · intro hheld
    refine BitVec.eq_of_getLsbD_eq fun k hk => ?_
    simpa [hk] using hheld k

/-- Some key was released exactly when the released mask has a bit set. -/
theorem exists_release_iff (previous keys : Byte) :
    (∃ k, k < 8 ∧ previous.getLsbD k = true ∧ keys.getLsbD k = false) ↔ previous &&& ~~~keys ≠ 0 := by
  rw [Ne, released_eq_zero_iff, not_forall]
  refine exists_congr fun k => ?_
  rw [Classical.not_imp, Bool.not_eq_true]
  exact ⟨And.right, fun h => ⟨BitVec.lt_of_getLsbD h.1, h⟩⟩

theorem flagsAfter_poll_of_held {s : State} {keys : Byte}
    (h : ∀ k, s.input.previous.getLsbD k = true → keys.getLsbD k = true) :
    flagsAfter s (.poll keys) = s.requestFlags :=
  if_pos ((released_eq_zero_iff _ _).mpr h)

theorem flagsAfter_poll_of_release {s : State} {keys : Byte}
    (h : ∃ k, k < 8 ∧ s.input.previous.getLsbD k = true ∧ keys.getLsbD k = false) :
    flagsAfter s (.poll keys) = s.requestFlags ||| (1#5 <<< s.cfg.vecJoypad) :=
  if_neg ((exists_release_iff _ _).mp h)

/-- POLL stores the keys in both masks and leaves the flags its release edge gives. -/
theorem exec_poll (keys : Byte) (s : State) :
    exec (.poll keys) s =
      .next ((s.setInput { s.input with current := keys, previous := keys }).setFlags
        (flagsAfter s (.poll keys))) :=
  congrArg Host.Outcome.next (pollKeys_eq keys s)

/-- Settles O39: POLL's flags by whether some key was released, and the word is that of PL (R75). -/
theorem pollStoresKeysAndRequestsOnRelease : Obligations.PollStoresKeysAndRequestsOnRelease := by
  refine ⟨fun s keys => ?_, fun c => decode_encode_poll c.toConfig⟩
  rw [exec_poll]
  split_ifs with hrelease
  · rw [flagsAfter_poll_of_release hrelease]; rfl
  · have hheld := not_imp_comm.mp (exists_release_iff s.input.previous keys).mpr hrelease
    rw [flagsAfter_poll_of_held ((released_eq_zero_iff _ _).mp hheld)]; rfl

/-! ## The register JOYP (R182, R183) -/

theorem groupNibble_eq (line : Bool) (keys : BitVec 4) :
    groupNibble line keys = if line = false then ~~~keys else 0b1111#4 := by
  cases line <;> rfl

/-- The status nibble with each group's select line written as a case split (R182). -/
theorem joypNibble_eq (i : InputState) :
    joypNibble i =
      (if i.select.getLsbD 0 = false then ~~~(i.current.extractLsb' 4 4) else 0b1111#4) &&&
        (if i.select.getLsbD 1 = false then ~~~(i.current.extractLsb' 0 4) else 0b1111#4) := by
  rw [joypNibble, groupNibble_eq, groupNibble_eq]

/-- The two select lines a data byte of JOYP gives (R183). -/
theorem joypLines_bits (d : Byte) :
    (joypLines d).getLsbD 0 = d.getLsbD 4 ∧ (joypLines d).getLsbD 1 = d.getLsbD 5 := by
  simp [joypLines]

/-- Settles O40: RD_JOYP yields the byte of JOYP, WR_JOYP is one update of the select lines, and the words are those of
the register JOYP. -/
theorem joypReadYieldsSelectedGroups : Obligations.JoypReadYieldsSelectedGroups := by
  refine ⟨fun s => ?_, fun _ d => ⟨_, rfl, rfl, joypLines_bits d⟩, fun c => decode_bus_words c .joyp, rfl⟩
  rw [← joypNibble_eq]
  rfl

/-! ## The joypad state after a command (R32 to R34) -/

/-- The joypad state a command leaves. -/
def inputAfter (s : State) : Instr → InputState
  | .poll keys => { s.input with current := keys, previous := keys }
  | .wrJoyp d => { s.input with select := joypLines d }
  | _ => s.input

/-- ADVANCE leaves the joypad state: neither half touches it. -/
theorem exec_advance_input {c : Cycles} {s t : State} (h : exec (.advance c) s = .next t) : t.input = s.input := by
  have hclock : (clockAdvance c.toNat s).input = s.input := by rw [clockAdvance_frame (by omega)]; rfl
  rw [exec_advance_eq] at h
  cases h
  split_ifs
  · obtain ⟨-, -, -, -, hinput, -, -⟩ := dmaLoop_frame c.toNat (clockAdvance c.toNat s)
    exact hinput.trans hclock
  · exact hclock

theorem exec_input {i : Instr} {s t : State} (h : exec i s = .next t) : t.input = inputAfter s i := by
  cases i with
  | advance c => exact exec_advance_input h
  | poll keys => rw [exec_poll] at h; cases h; rfl
  | _ => cases h; rfl

/-- The masks that a POLL compares are left by every command but POLL (R184). -/
theorem inputAfter_masks {i : Instr} (s : State) (hi : ∀ keys, i ≠ .poll keys) :
    (inputAfter s i).previous = s.input.previous ∧ (inputAfter s i).current = s.input.current := by
  cases i with
  | poll keys => exact absurd rfl (hi keys)
  | _ => exact ⟨rfl, rfl⟩

/-- Settles O42: what POLL leaves in the masks and in the flags does not read the select lines. -/
theorem pollIgnoresTheSelectLines : Obligations.PollIgnoresTheSelectLines := by
  refine ⟨fun s keys sel => ⟨_, exec_poll keys s, exec_poll keys _⟩, fun s k keys hbefore hnow => ?_,
    fun s keys hheld => ?_, fun i s t h hi => ?_⟩
  · exact ⟨_, exec_poll keys s,
      flagsAfter_poll_of_release ⟨k, BitVec.lt_of_getLsbD hbefore, hbefore, hnow⟩⟩
  · exact ⟨_, exec_poll keys s, flagsAfter_poll_of_held hheld⟩
  · rw [exec_input h]
    exact inputAfter_masks s hi

end Sys2Proof.Machine

/-! Proofs of the statements about the exceptions (60_exceptions.md): the words the step refuses, and the two faults. -/

namespace Sys2Proof

/-! ## What decodes is legal (R80) -/

section
variable {c : Config} {w : Word} {i : Instr}

/-- A format of R75 to R77 is decoded only when its reserved field is zero. -/
theorem decodePlain_ok {n : Nat} {rsv : BitVec n} {j : Instr} (h : decodePlain rsv j = .ok i) : rsv = 0 := by
  rw [decodePlain] at h
  split_ifs at h with hrsv
  exact hrsv

/-- A BR word is decoded only when its reserved bits are zero and its address is a register's (R72). -/
theorem decodeRead_ok (h : decodeRead c w = .ok i) :
    w.extractLsb' 16 12 = 0 ∧ ∃ r, c.registerAt (addrField w) = some r := by
  rw [decodeRead] at h
  split_ifs at h with hrsv
  split at h
  · exact ⟨hrsv, _, ‹_›⟩
  · cases h

/-- A BW word is decoded only when its reserved bits are zero and its address is a register's (R73). -/
theorem decodeWrite_ok (h : decodeWrite c w = .ok i) :
    w.extractLsb' 24 4 = 0 ∧ ∃ r, c.registerAt (addrField w) = some r := by
  rw [decodeWrite] at h
  split_ifs at h with hrsv
  split at h
  · exact ⟨hrsv, _, ‹_›⟩
  · cases h

/-- The class field as R80's own predicates read it. -/
theorem toNat_of_clsField {k : BitVec 4} (hcls : clsField w = k) : (w.extractLsb' 28 4).toNat = k.toNat :=
  congrArg BitVec.toNat hcls

/-- A bus word whose reserved bits are zero and whose address is a register's is legal (R80). -/
theorem legalWord_of_bus_fields (hcls : clsField w = 0x1 ∨ clsField w = 0x2) (hrsv : reservedBitSet w = false)
    (hreg : ∃ r, c.registerAt (addrField w) = some r) : legalWord c w = true := by
  obtain ⟨r, hr⟩ := hreg
  have hmem := (c.mem_addresses_iff (w.extractLsb' 0 16)).mpr ⟨r, Config.addrOf_of_registerAt hr⟩
  simp only [legalWord, reservedClass, namesNoRegister, hrsv, List.contains_eq_mem, hmem]
  rcases hcls with hcls | hcls <;> rw [toNat_of_clsField hcls] <;> rfl

/-- A word of a class 3 to 7 whose reserved bits are zero is legal, the class being read from its field (R80). -/
theorem legalWord_of_plain_fields {k : BitVec 4} (hcls : clsField w = k) (hk : 3 ≤ k.toNat ∧ k.toNat ≤ 7)
    (hrsv : reservedBitSet w = false) : legalWord c w = true := by
  have hnum := extractLsb'_toNat_div w 28 4
  rw [toNat_of_clsField hcls] at hnum
  exact legalWord_of_class c k.toNat hk (by omega) hrsv

/-- The decoder answers an instruction on legal words only (R80). -/
theorem legalWord_of_decode_ok (h : decode c w = .ok i) : legalWord c w = true := by
  rw [decode] at h
  split_ifs at h with hbr hbw hadv hpl hreq hclr hds
  · obtain ⟨hrsv, hreg⟩ := decodeRead_ok h
    exact legalWord_of_bus_fields (.inl hbr) (by simp [reservedBitSet, toNat_of_clsField hbr, hrsv]) hreg
  · obtain ⟨hrsv, hreg⟩ := decodeWrite_ok h
    exact legalWord_of_bus_fields (.inr hbw) (by simp [reservedBitSet, toNat_of_clsField hbw, hrsv]) hreg
  · exact legalWord_of_plain_fields hadv (by decide) (by simp [reservedBitSet, toNat_of_clsField hadv])
  · exact legalWord_of_plain_fields hpl (by decide)
      (by simp [reservedBitSet, toNat_of_clsField hpl, decodePlain_ok h])
  · exact legalWord_of_plain_fields hreq (by decide)
      (by simp [reservedBitSet, toNat_of_clsField hreq, decodePlain_ok h])
  · exact legalWord_of_plain_fields hclr (by decide)
      (by simp [reservedBitSet, toNat_of_clsField hclr, decodePlain_ok h])
  · exact legalWord_of_plain_fields hds (by decide)
      (by simp [reservedBitSet, toNat_of_clsField hds, decodePlain_ok h])

/-- The decoder refuses every word that is not legal (R80). -/
theorem decode_error_of_not_legal (h : legalWord c w = false) : ∃ e, decode c w = .error e := by
  cases hdec : decode c w with
  | error e => exact ⟨e, rfl⟩
  | ok i => exact absurd (legalWord_of_decode_ok hdec) (by simp [h])

end

end Sys2Proof

namespace Sys2Proof.Machine

/-! ## The refused mark (R201) -/

/-- Settles O13: the decoder refuses a word that is not legal, so the step only sets the mark; no step clears it; and a
configuration carries the proof that it meets R7's constraints. -/
theorem reservedWordSetsOnlyTheRefusedMark : Obligations.ReservedWordSetsOnlyTheRefusedMark := by
  refine ⟨fun s w ws hfault hcommands hlegal => ?_, fun _ _ => step_keeps_refused, fun s => s.cfg.ok⟩
  obtain ⟨e, he⟩ := decode_error_of_not_legal hlegal
  exact step_of_refused_word hfault hcommands he

/-! ## The two faults (R200) -/

/-- A non-zero ADVANCE of a transfer whose count is out of range leaves that count as the fault (R141). -/
theorem faultAfter_advance_of_out_of_range {s : State} {c : Cycles} (hc : c ≠ 0) (hb : s.dma.busy = true)
    (hn : 160 ≤ s.dma.count) : faultAfter s (.advance c) = some (.dmaCountRange s.dma.count) :=
  if_pos ⟨hb, fun h0 => hc (BitVec.eq_of_toNat_eq h0), hn⟩

/-- Every other command, and every other ADVANCE, leaves the fault as it was. -/
theorem faultAfter_eq_of_not_raised {s : State} {i : Instr}
    (h : ¬((∃ c : Cycles, i = .advance c ∧ c ≠ 0) ∧ s.dma.busy = true ∧ 160 ≤ s.dma.count)) :
    faultAfter s i = s.fault := by
  cases i with
  | advance c =>
    refine if_neg fun ⟨hb, hc, hn⟩ => h ⟨⟨c, rfl, ?_⟩, hb, hn⟩
    rintro rfl
    exact hc rfl
  | _ => rfl

/-- Settles O15: a negative budget takes the first branch of either half; the fault a command leaves is read off from
its case, and the count of a well-formed state is in range; a faulted state answers its fault. -/
theorem faultsAreExactlyTheTwoOfTheSpec : Obligations.FaultsAreExactlyTheTwoOfTheSpec := by
  refine ⟨fun c s hc => ⟨if_pos hc, if_pos hc⟩, fun i s t h => ?_, fun i s t hwf h => ?_, fun _ _ => step_of_fault⟩
  · rw [exec_fault h]
    split_ifs with hraise
    · obtain ⟨⟨c, rfl, hc⟩, hb, hn⟩ := hraise
      exact faultAfter_advance_of_out_of_range hc hb hn
    · exact faultAfter_eq_of_not_raised hraise
  · obtain ⟨⟨-, -, hcount, -, -, hfault⟩, -⟩ := hwf
    rw [exec_fault h, faultAfter_eq_of_not_raised fun ⟨_, _, hn⟩ => by omega, hfault]

end Sys2Proof.Machine

/-! Proof of the statement about the countdowns and the register writes (70_reset_and_hazards.md, R237): the first
increment after a write still ends the countdown that was running. -/

namespace Sys2Proof.Machine

/-! ## The two countdowns after a command -/

/-- Only ADVANCE counts down: every other command leaves both countdowns. -/
theorem clockAfter_counters {i : Instr} (s : State) (hi : ∀ c, i ≠ .advance c) :
    (clockAfter s i).dividerCounter = s.clock.dividerCounter ∧
      (clockAfter s i).timerCounter = s.clock.timerCounter := by
  cases i with
  | advance c => exact absurd rfl (hi c)
  | _ => exact ⟨rfl, rfl⟩

/-! ## ADVANCE up to the end of a countdown -/

/-- A countdown used up exactly triggers once. -/
theorem triggerCount_zero {i : Nat} (hi : 0 < i) : triggerCount i 0 = 1 :=
  triggerCount_unique hi le_rfl (by omega) (by omega)

section
variable {c : Cycles} {s t : State} (h : exec (.advance c) s = .next t)
include h

/-- A budget below the divider's countdown leaves DIV. -/
theorem exec_advance_dividerRegister_of_lt (hlt : (c.toNat : Int) < s.clock.dividerCounter) :
    t.clock.dividerRegister = s.clock.dividerRegister := by
  rw [(exec_advance_divider h).2, dividerStep_eq, triggerCount_pos (by omega)]
  exact BitVec.add_zero _

/-- A budget that uses the divider's countdown up exactly adds 1 to DIV. -/
theorem exec_advance_dividerRegister_of_eq (hend : (c.toNat : Int) = s.clock.dividerCounter) :
    t.clock.dividerRegister = s.clock.dividerRegister + 1 := by
  rw [(exec_advance_divider h).2, dividerStep_eq, hend, sub_self, triggerCount_zero s.cfg.divInterval_pos]
  rfl

variable (hon : s.clock.timerEnabled = true)
include hon

/-- A budget below an enabled timer's countdown leaves TIMA. -/
theorem exec_advance_timerRegister_of_lt (hlt : (c.toNat : Int) < s.clock.timerCounter) :
    t.clock.timerRegister = s.clock.timerRegister := by
  rw [(exec_advance_enabled h hon).1, timerTicks_eq_zero hlt, Function.iterate_zero_apply]

/-- A budget that uses an enabled timer's countdown up exactly adds 1 to a TIMA that does not overflow. -/
theorem exec_advance_timerRegister_of_eq (hend : (c.toNat : Int) = s.clock.timerCounter)
    (htima : s.clock.timerRegister ≠ 0xFF) : t.clock.timerRegister = s.clock.timerRegister + 1 := by
  have hpos := s.cfg.timerInterval_pos s.clock.timerSelect
  have hticks : timerTicks c.toNat s = 1 := timerTicks_eq_one (by omega) (by omega)
  rw [(exec_advance_enabled h hon).1, hticks, Function.iterate_one, timerTick_register, if_neg htima]

end

/-- A command that answers a state, and then an ADVANCE, answer what the ADVANCE does from that state. -/
theorem perform_then_advance {i : Instr} {s u : State} (h : exec i s = .next u) (c : Cycles) :
    ∃ t, exec (.advance c) u = .next t ∧ perform [i, .advance c] s = .next t := by
  obtain ⟨t, ht⟩ := exec_advance_next c u
  exact ⟨t, ht, (perform_cons_of_next _ h).trans (perform_cons_of_next [] ht)⟩

/-- Settles O46: the state a write of DIV or TAC leaves holds the countdown of the state before it, and ADVANCE
increments the register exactly when it uses that countdown up. -/
theorem countdownsSurviveRegisterWrites : Obligations.CountdownsSurviveRegisterWrites := by
  refine ⟨fun i s t h hi => ?_, fun s d c _ => ?_, fun s d c _ hon htima => ?_⟩
  · rw [exec_clock h]
    exact clockAfter_counters s hi
  · obtain ⟨t, ht, hperform⟩ := perform_then_advance (i := .wrDiv d) (s := s) rfl c
    exact ⟨t, hperform, exec_advance_dividerRegister_of_lt ht, exec_advance_dividerRegister_of_eq ht⟩
  · obtain ⟨t, ht, hperform⟩ := perform_then_advance (i := .wrTac d) (s := s) rfl c
    have hbelow := exec_advance_timerRegister_of_lt ht hon
    have hend := exec_advance_timerRegister_of_eq ht hon
    exact ⟨t, hperform, hbelow, fun heq => hend heq htima⟩

end Sys2Proof.Machine

/-! Proofs of the statements about the decoder and the encoder (30_encoding.md): the encoder writes exactly the legal
words, and the decoder takes each of them back. -/

namespace Sys2Proof

/-! ## Decoding what the encoder writes -/

/-- The decoder takes back every word the encoder writes. -/
theorem decode_encode (c : ValidConfig) (i : Instr) : decode c.toConfig (encode c.toConfig i) = .ok i := by
  cases i with
  | rdJoyp => exact decode_encodeRead_addrOf c .joyp
  | wrJoyp d => exact decode_encodeWrite_addrOf c .joyp d
  | rdDiv => exact decode_encodeRead_addrOf c .div
  | wrDiv d => exact decode_encodeWrite_addrOf c .div d
  | rdTima => exact decode_encodeRead_addrOf c .tima
  | wrTima d => exact decode_encodeWrite_addrOf c .tima d
  | rdTma => exact decode_encodeRead_addrOf c .tma
  | wrTma d => exact decode_encodeWrite_addrOf c .tma d
  | rdTac => exact decode_encodeRead_addrOf c .tac
  | wrTac d => exact decode_encodeWrite_addrOf c .tac d
  | rdIf => exact decode_encodeRead_addrOf c .ifReg
  | wrIf d => exact decode_encodeWrite_addrOf c .ifReg d
  | rdDma => exact decode_encodeRead_addrOf c .dma
  | wrDma d => exact decode_encodeWrite_addrOf c .dma d
  | advance n => exact decode_encode_advance c.toConfig n
  | poll keys => exact decode_encode_poll c.toConfig keys
  | irqReq m => exact decode_encode_irqReq c.toConfig m
  | irqClr m => exact decode_encode_irqClr c.toConfig m
  | dmaStart src => exact decode_encode_dmaStart c.toConfig src

/-- Settles O3: the decoder takes back the word of each command. -/
theorem decodeOfEncodeIsTheInstruction : Obligations.DecodeOfEncodeIsTheInstruction :=
  fun c i _ => decode_encode c i

/-! ## Every legal word is one the encoder writes

A legal word is rebuilt from its class, its zero reserved field and its operand (R72 to R77), each read off the word as
a number. -/

/-- A word with the class, the zero reserved field and the low operand of another is that word. -/
theorem eq_of_class_of_operand {w v : Word} {k lo rsv : Nat} (hcls : (w.extractLsb' 28 4).toNat = k)
    (hrsv : w.extractLsb' lo rsv = 0) (hlo : lo + rsv = 28)
    (hv : v.toNat = k * 2 ^ 28 + (w.extractLsb' 0 lo).toNat) : v = w := by
  have hzero : w.toNat / 2 ^ lo % 2 ^ rsv = 0 := by rw [← extractLsb'_toNat_div, hrsv]; rfl
  have hlow : w.toNat % 2 ^ 28 = w.toNat % 2 ^ lo := by rw [← hlo, pow_add, Nat.mod_mul, hzero, mul_zero, add_zero]
  rw [extractLsb'_toNat_div] at hcls
  rw [extractLsb'_toNat_div, pow_zero, Nat.div_one, ← hlow] at hv
  apply BitVec.eq_of_toNat_eq
  omega

theorem encodeWrite_addrField_dataField {w : Word} (hcls : (w.extractLsb' 28 4).toNat = 2)
    (hrsv : w.extractLsb' 24 4 = 0) : encodeWrite (addrField w) (dataField w) = w := by
  have hzero : w.toNat / 2 ^ 24 % 2 ^ 4 = 0 := by rw [← extractLsb'_toNat_div, hrsv]; rfl
  rw [extractLsb'_toNat_div] at hcls
  apply BitVec.eq_of_toNat_eq
  rw [encodeWrite_toNat, addrField, dataField, extractLsb'_toNat_div, extractLsb'_toNat_div]
  omega

/-- A legal word is one of a command class whose reserved bits are zero, and a bus word of a register (R80). -/
theorem legalWord_iff (c : Config) (w : Word) :
    legalWord c w = true ↔
      (1 ≤ (w.extractLsb' 28 4).toNat ∧ (w.extractLsb' 28 4).toNat ≤ 7) ∧ reservedBitSet w = false ∧
        ((w.extractLsb' 28 4).toNat = 1 ∨ (w.extractLsb' 28 4).toNat = 2 → ∃ r, c.addrOf r = addrField w) := by
  have haddr := c.mem_addresses_iff (addrField w)
  simp only [legalWord, reservedClass, namesNoRegister, Bool.and_eq_true, Bool.not_eq_true', Bool.or_eq_false_iff,
    Bool.and_eq_false_iff, beq_eq_false_iff_ne, decide_eq_false_iff_not, Bool.not_eq_false', List.contains_eq_mem,
    decide_eq_true_eq]
  rw [addrField] at haddr ⊢
  rw [haddr, and_assoc]
  refine and_congr (by omega) (and_congr_right fun _ => ?_)
  tauto

/-- Every legal word is the encoding of a command. -/
theorem exists_encode_of_legalWord {c : Config} {w : Word} (h : legalWord c w = true) : ∃ i, encode c i = w := by
  obtain ⟨⟨hlo, hhi⟩, hrsv, hreg⟩ := (legalWord_iff c w).mp h
  rw [reservedBitSet] at hrsv
  generalize hcls : (w.extractLsb' 28 4).toNat = k at hlo hhi hrsv hreg
  interval_cases k
  · obtain ⟨r, hr⟩ := hreg (.inl rfl)
    refine ⟨readOf r, ?_⟩
    rw [encode_readOf, hr]
    exact eq_of_class_of_operand hcls (bne_eq_false_iff_eq.mp hrsv) rfl (encodeRead_toNat _)
  · obtain ⟨r, hr⟩ := hreg (.inr rfl)
    refine ⟨writeOf (dataField w) r, ?_⟩
    rw [encode_writeOf, hr, encodeWrite_addrField_dataField hcls (bne_eq_false_iff_eq.mp hrsv)]
  · exact ⟨_, eq_of_class_of_operand hcls BitVec.of_length_zero rfl (encode_advance_toNat c (cyclesField w))⟩
  · exact ⟨_, eq_of_class_of_operand hcls (bne_eq_false_iff_eq.mp hrsv) rfl (encode_poll_toNat c (keysField w))⟩
  · exact ⟨_, eq_of_class_of_operand hcls (bne_eq_false_iff_eq.mp hrsv) rfl (encode_irqReq_toNat c (maskField w))⟩
  · exact ⟨_, eq_of_class_of_operand hcls (bne_eq_false_iff_eq.mp hrsv) rfl (encode_irqClr_toNat c (maskField w))⟩
  · exact ⟨_, eq_of_class_of_operand hcls (bne_eq_false_iff_eq.mp hrsv) rfl (encode_dmaStart_toNat c (srcField w))⟩

/-- Settles O4: a word that decodes is legal, hence the encoding of some command, which is the one it decodes to. -/
theorem encodeOfDecodeIsTheWord : Obligations.EncodeOfDecodeIsTheWord := by
  intro c w i h
  obtain ⟨j, rfl⟩ := exists_encode_of_legalWord (legalWord_of_decode_ok h)
  rw [decode_encode] at h
  cases h
  rfl

/-! ## The words the decoder refuses (R80) -/

/-- The decoder answers a command on every legal word. -/
theorem decode_ok_of_legalWord (c : ValidConfig) {w : Word} (h : legalWord c.toConfig w = true) :
    ∃ i, decode c.toConfig w = .ok i := by
  obtain ⟨i, rfl⟩ := exists_encode_of_legalWord h
  exact ⟨i, decode_encode c i⟩

/-- The decoder refuses exactly the words that are not legal. -/
theorem decode_error_iff (c : ValidConfig) (w : Word) :
    (∃ e, decode c.toConfig w = .error e) ↔ legalWord c.toConfig w = false := by
  refine ⟨fun ⟨e, he⟩ => Bool.eq_false_iff.mpr fun hlegal => ?_, decode_error_of_not_legal⟩
  obtain ⟨i, hi⟩ := decode_ok_of_legalWord c hlegal
  rw [hi] at he
  cases he

/-- Settles O5: the words that are not legal are those of the three conditions. -/
theorem decoderRefusesExactlyReservedWords : Obligations.DecoderRefusesExactlyReservedWords := by
  intro c w
  rw [decode_error_iff, legalWord]
  simp only [Bool.and_eq_false_iff, Bool.not_eq_false', or_assoc]

/-- Settles O1: the decoder evaluated on each word. -/
theorem specWordsDecodeToTheirCommands : Obligations.SpecWordsDecodeToTheirCommands :=
  ⟨rfl, rfl, rfl, rfl, rfl, rfl, rfl, rfl, rfl, rfl, rfl, rfl, rfl, rfl, rfl, rfl, rfl, rfl⟩

end Sys2Proof

namespace Sys2Proof.Machine

/-! ## The words of assembler commands (R82) -/

/-- The word of a command with one immediate decodes to the command, for an immediate in the range of its field. -/
theorem decode_assembled {n : Nat} (c : ValidConfig) (command : BitVec n → Instr) {imm : Nat} (h : imm < 2 ^ n) :
    ∃ x : BitVec n, x.toNat = imm ∧
      decode c.toConfig (encode c.toConfig (command (BitVec.ofNat n imm))) = .ok (command x) :=
  ⟨BitVec.ofNat n imm, Nat.mod_eq_of_lt h, decode_encode c _⟩

/-- Settles O6: each line is the encoding of its command, and a raw address that is no register's is refused. -/
theorem assembledCommandsDecode : Obligations.AssembledCommandsDecode := by
  intro c
  refine ⟨decode_encodeRead_addrOf c, fun r imm h => ?_, fun a imm ha => ?_, fun _ _ => ⟨rfl, rfl⟩,
    fun n h => decode_assembled c .advance (of_decide_eq_true h),
    fun n h => decode_assembled c .poll (of_decide_eq_true h),
    fun n h => decode_assembled c .irqReq (of_decide_eq_true h),
    fun n h => decode_assembled c .irqClr (of_decide_eq_true h),
    fun n h => decode_assembled c .dmaStart (of_decide_eq_true h)⟩
  · exact ⟨BitVec.ofNat 8 imm, Nat.mod_eq_of_lt (of_decide_eq_true h), decode_encodeWrite_addrOf c r _⟩
  · have hnone := (c.registerAt_eq_none_iff a).mpr ha
    simp only [assembleCommand, regOperandAddr, decode_encodeRead, decode_encodeWrite, hnone, Option.elim_none,
      and_self]

end Sys2Proof.Machine

/-! Proofs of the statements about every step and every run: the parameters of the step, the well-formed state
(10_state.md R47), the canonical form of OAM, and the writers of the joypad state and of OAM. -/

namespace Sys2Proof.Machine

/-! ## What ADVANCE and the other commands leave alone -/

section
variable {c : Int} (hc : 0 ≤ c) (s : State)
include hc

theorem clockAdvance_cfg : (clockAdvance c s).cfg = s.cfg := by
  rw [clockAdvance_frame hc]; rfl

theorem clockAdvance_commands : (clockAdvance c s).commands = s.commands := by
  rw [clockAdvance_frame hc]; rfl

theorem clockAdvance_oam : (clockAdvance c s).oam = s.oam := by
  rw [clockAdvance_frame hc]; rfl

theorem clockAdvance_record : (clockAdvance c s).record = s.record := by
  rw [clockAdvance_frame hc]; rfl

end

/-- ADVANCE leaves the two parameters of the step that State holds: neither half touches them. -/
theorem exec_advance_parameters {c : Cycles} {s t : State} (h : exec (.advance c) s = .next t) :
    t.cfg = s.cfg ∧ t.commands = s.commands := by
  have hcfg := clockAdvance_cfg (Int.natCast_nonneg c.toNat) s
  have hcommands := clockAdvance_commands (Int.natCast_nonneg c.toNat) s
  rw [exec_advance_eq] at h
  cases h
  split_ifs
  · obtain ⟨hcfg', hcommands', -⟩ := dmaLoop_frame c.toNat (clockAdvance c.toNat s)
    exact ⟨hcfg'.trans hcfg, hcommands'.trans hcommands⟩
  · exact ⟨hcfg, hcommands⟩

/-- No command writes the configuration or the words to come (R37). -/
theorem exec_parameters {i : Instr} {s t : State} (h : exec i s = .next t) :
    t.cfg = s.cfg ∧ t.commands = s.commands := by
  cases i with
  | advance c => exact exec_advance_parameters h
  | poll keys => rw [exec_poll] at h; cases h; exact ⟨rfl, rfl⟩
  | _ => cases h; exact ⟨rfl, rfl⟩

theorem exec_cfg {i : Instr} {s t : State} (h : exec i s = .next t) : t.cfg = s.cfg := (exec_parameters h).1

/-- Settles O12: a step idles, or takes one word and then marks the state or performs a command, which leaves both. -/
theorem stepKeepsParameters : Obligations.StepKeepsParameters := by
  intro s t h
  obtain ⟨-, ⟨hnil, rfl⟩ | ⟨w, ws, e, hcons, -, rfl⟩ | ⟨w, ws, i, hcons, -, hexec⟩⟩ := step_cases h
  · rw [hnil]; exact ⟨rfl, rfl⟩
  · rw [hcons]; exact ⟨rfl, rfl⟩
  · rw [hcons]; exact exec_parameters hexec

/-! ## Every command and every step answers -/

/-- Settles O11: every arm answers a next state. -/
theorem everyCommandAnswersANextState : Obligations.EveryCommandAnswersANextState := by
  intro i s
  cases i with
  | _ => exact ⟨_, rfl⟩

theorem step_of_no_word {s : State} (hfault : s.fault = none) (hnil : s.commands = []) : step s = .next s := by
  simp [step, takeCommand, hfault, hnil]

/-- Settles O9: with nothing to take the step is the idle one. -/
theorem stepWithNothingPresentedIdles : Obligations.StepWithNothingPresentedIdles :=
  fun _ => step_of_no_word

/-- A state without a fault steps to a next state: no command stops, and no word does. -/
theorem step_next_of_no_fault {s : State} (hfault : s.fault = none) : ∃ t, step s = .next t := by
  cases hcommands : s.commands with
  | nil => exact ⟨s, step_of_no_word hfault hcommands⟩
  | cons w ws =>
    cases hdec : decode s.cfg.toConfig w with
    | error e => exact ⟨_, step_of_refused_word hfault hcommands hdec⟩
    | ok i =>
      obtain ⟨t, ht⟩ := everyCommandAnswersANextState i (s.setCommands ws)
      exact ⟨t, (step_of_command hfault hcommands hdec).trans ht⟩

/-! ## An invariant of the commands is one of the steps -/

/-- What every command keeps, and what neither the words to come nor the refused mark bears on, every step keeps. -/
theorem step_keeps {P : State → Prop} (hcommands : ∀ s ws, P s → P (s.setCommands ws))
    (hrefuse : ∀ s, P s → P s.refuse) (hexec : ∀ i s t, exec i s = .next t → P s → P t) {s t : State}
    (h : step s = .next t) (hs : P s) : P t := by
  obtain ⟨-, ⟨-, rfl⟩ | ⟨w, ws, e, -, -, rfl⟩ | ⟨w, ws, i, -, -, hi⟩⟩ := step_cases h
  · exact hs
  · exact hrefuse _ (hcommands _ _ hs)
  · exact hexec i _ t hi (hcommands _ _ hs)

/-! ## The canonical form of OAM -/

/-- Every command keeps OAM canonical: only the DMA loop writes it, and only inside the 160 bytes. -/
theorem exec_keeps_oam_wf (i : Instr) (s t : State) (h : exec i s = .next t) (hs : s.oam.wf = true) :
    t.oam.wf = true := by
  by_cases hi : ∃ c, i = .advance c
  · obtain ⟨c, rfl⟩ := hi
    have hclock : (clockAdvance c.toNat s).oam.wf = true := by rwa [clockAdvance_oam (by omega)]
    rw [exec_advance_eq] at h
    cases h
    split_ifs
    · exact dmaLoop_oam_wf _ _ hclock
    · exact hclock
  · rwa [exec_oam h fun c hc => hi ⟨c, hc⟩]

/-- Settles O54: canonical OAM is kept by every command, and no step but a command touches OAM. -/
theorem everyStepKeepsOamCanonical : Obligations.EveryStepKeepsOamCanonical :=
  fun _ _ hs h => step_keeps (P := fun s => s.oam.wf = true) (fun _ _ => id) (fun _ => id) exec_keeps_oam_wf h hs

/-! ## The well-formed state (R47) -/

theorem fault_eq_none_of_coherent {s : State} (hs : Coherent s) : s.fault = none := by
  obtain ⟨-, -, -, -, -, hfault⟩ := hs
  exact hfault

/-- A countdown that starts at most at a bound on its interval ends positive and within that bound, on any budget. -/
theorem countdown_end_bounds {i : Nat} (hi : 0 < i) {bound : Nat} (hbound : i ≤ bound) {d c : Int} (hc : 0 ≤ c)
    (hd : d ≤ bound) :
    1 ≤ d - c + triggerCount i (d - c) * i ∧ d - c + triggerCount i (d - c) * i ≤ bound := by
  refine ⟨triggerCount_end_pos hi _, ?_⟩
  by_cases htrigger : triggerCount i (d - c) = 0
  · rw [htrigger]; push_cast; omega
  · have := triggerCount_end_le hi htrigger; omega

/-- The divider's countdown stays in 1..DIV_INTERVAL. -/
theorem clockAfter_dividerCounter_bounds (i : Instr) {s : State}
    (h : 1 ≤ s.clock.dividerCounter ∧ s.clock.dividerCounter ≤ s.cfg.divInterval) :
    1 ≤ (clockAfter s i).dividerCounter ∧ (clockAfter s i).dividerCounter ≤ s.cfg.divInterval := by
  cases i with
  | advance c =>
    rw [clockAfter, clockAdvance_clock (by omega)]
    exact countdown_end_bounds s.cfg.divInterval_pos le_rfl (by omega) h.2
  | _ => exact h

/-- The timer's countdown stays in 1..max(TIMER_TABLE): its interval is at most that, and a disabled timer keeps it. -/
theorem clockAfter_timerCounter_bounds (i : Instr) {s : State}
    (h : 1 ≤ s.clock.timerCounter ∧ s.clock.timerCounter ≤ s.cfg.maxTimerInterval) :
    1 ≤ (clockAfter s i).timerCounter ∧ (clockAfter s i).timerCounter ≤ s.cfg.maxTimerInterval := by
  cases i with
  | advance c =>
    rw [clockAfter, clockAdvance_clock (by omega)]
    dsimp only
    split_ifs
    · exact countdown_end_bounds (s.cfg.timerInterval_pos _) (s.cfg.timerInterval_le_max _) (by omega) h.2
    · exact h
  | _ => exact h

/-- The count stays below the length of a transfer, and an idle engine keeps source and count 0. -/
theorem dmaAfter_bounds (i : Instr) {s : State} (hcount : s.dma.count ≤ 159)
    (hidle : s.dma.busy = false → s.dma.source = 0 ∧ s.dma.count = 0) :
    (dmaAfter s i).count ≤ 159 ∧
      ((dmaAfter s i).busy = false → (dmaAfter s i).source = 0 ∧ (dmaAfter s i).count = 0) := by
  cases i with
  | dmaStart src => exact ⟨Nat.zero_le _, nofun⟩
  | wrDma d => exact ⟨Nat.zero_le _, nofun⟩
  | advance c =>
    rw [dmaAfter]
    split_ifs with hrun hend
    · exact ⟨Nat.zero_le _, fun _ => ⟨rfl, rfl⟩⟩
    · obtain ⟨hb, -⟩ := hrun
      refine ⟨Nat.le_of_lt_succ (not_le.mp hend), fun hb' => ?_⟩
      exact absurd hb (Bool.eq_false_iff.mp hb')
    · exact ⟨hcount, hidle⟩
  | _ => exact ⟨hcount, hidle⟩

/-- A command leaves the two masks equal: POLL stores the keys in both (R33). -/
theorem inputAfter_previous (i : Instr) {s : State} (h : s.input.previous = s.input.current) :
    (inputAfter s i).previous = (inputAfter s i).current := by
  cases i with
  | poll keys => rfl
  | _ => exact h

/-- Every command keeps the clauses of WF other than the refused mark. -/
theorem exec_keeps_coherent (i : Instr) (s t : State) (h : exec i s = .next t) (hs : Coherent s) : Coherent t := by
  obtain ⟨hdiv, htimer, hcount, hidle, hinput, hfault⟩ := hs
  obtain ⟨hcount', hidle'⟩ := dmaAfter_bounds i hcount hidle
  rw [Coherent, exec_clock h, exec_dma h, exec_input h, exec_fault h, exec_cfg h]
  refine ⟨clockAfter_dividerCounter_bounds i hdiv, clockAfter_timerCounter_bounds i htimer, hcount', hidle',
    inputAfter_previous i hinput, ?_⟩
  rw [faultAfter_eq_of_not_raised fun ⟨_, _, hrange⟩ => by omega, hfault]

theorem step_keeps_coherent {s t : State} (hs : Coherent s) (h : step s = .next t) : Coherent t :=
  step_keeps (fun _ _ => id) (fun _ => id) exec_keeps_coherent h hs

/-- Settles O53: every command keeps the clauses, and a legal word is a command, which leaves the refused mark. -/
theorem everyStepKeepsTheWellFormedState : Obligations.EveryStepKeepsTheWellFormedState := by
  refine ⟨fun _ _ => step_keeps_coherent, fun s t w ws ⟨hs, hrefused⟩ hcommands hlegal h => ?_⟩
  refine ⟨step_keeps_coherent hs h, ?_⟩
  obtain ⟨i, hi⟩ := decode_ok_of_legalWord s.cfg hlegal
  rw [step_of_command (fault_eq_none_of_coherent hs) hcommands hi] at h
  exact (exec_refused h).trans hrefused

/-- Settles O55, by induction over the words: a state that meets the clauses steps to one. -/
theorem noRunFromAWellFormedStateFaults : Obligations.NoRunFromAWellFormedStateFaults := by
  intro ws
  induction ws with
  | nil => exact fun s hs => ⟨s, rfl, hs⟩
  | cons w ws ih =>
    intro s hs
    obtain ⟨t, ht⟩ := step_next_of_no_fault (s := s.setCommands [w]) (fault_eq_none_of_coherent hs)
    obtain ⟨u, hu, hcoherent⟩ := ih t (step_keeps_coherent (s := s.setCommands [w]) hs ht)
    refine ⟨u, ?_, hcoherent⟩
    rw [runWords, ht]
    exact hu

/-! ## The writers of the joypad state and of OAM -/

/-- Settles O48: read off from the joypad state after each command. -/
theorem onlyPollAndWrJoypWriteJoypadState : Obligations.OnlyPollAndWrJoypWriteJoypadState := by
  intro i s t h
  rw [exec_input h]
  cases i with
  | _ => exact ⟨rfl, rfl, rfl⟩

/-- What a state holds of the DMA engine's traffic: OAM, the raw reads and the OAM writes. -/
def dmaTraffic (s : State) : Memory × List Host.Cell × List Host.Cell :=
  (s.oam, s.record.rawReads, s.record.oamWrites)

/-- The DMA loop makes no transfer on no budget, and none from a count outside the transfer. -/
theorem dmaLoop_traffic_of_no_copy {n : Nat} {s : State} (h : n = 0 ∨ dmaLength ≤ s.dma.count) :
    dmaTraffic (dmaLoop n s) = dmaTraffic s := by
  cases n with
  | zero => rfl
  | succ n => rw [dmaLoop_fault n s (h.resolve_left n.succ_ne_zero)]; rfl

theorem exec_advance_traffic_of_no_copy {c : Cycles} {s t : State} (h : exec (.advance c) s = .next t)
    (hno : s.dma.busy = true → c.toNat = 0 ∨ dmaLength ≤ s.dma.count) : dmaTraffic t = dmaTraffic s := by
  have hclock : dmaTraffic (clockAdvance c.toNat s) = dmaTraffic s := by rw [clockAdvance_frame (by omega)]; rfl
  rw [exec_advance_eq] at h
  cases h
  split_ifs with hb
  · rw [dmaLoop_traffic_of_no_copy (by rw [clockAdvance_dma (by omega)]; exact hno hb), hclock]
  · exact hclock

/-- No command but ADVANCE makes the DMA engine transfer. -/
theorem exec_traffic {i : Instr} {s t : State} (h : exec i s = .next t) (hi : ∀ c, i ≠ .advance c) :
    dmaTraffic t = dmaTraffic s := by
  cases i with
  | advance c => exact absurd rfl (hi c)
  | poll keys => rw [exec_poll] at h; cases h; rfl
  | _ => cases h; rfl

/-- Settles O49: no command but ADVANCE transfers, and ADVANCE does so only while its loop copies. -/
theorem onlyAdvanceInATransferWritesOam : Obligations.OnlyAdvanceInATransferWritesOam := by
  intro i s t h hno
  have htraffic : dmaTraffic t = dmaTraffic s := by
    by_cases hi : ∃ c, i = .advance c
    · obtain ⟨c, rfl⟩ := hi
      refine exec_advance_traffic_of_no_copy h fun hb => ?_
      by_contra hcopy
      obtain ⟨hc, hn⟩ := not_or.mp hcopy
      exact hno ⟨⟨c, rfl, fun h0 => hc (by rw [h0]; rfl)⟩, hb, not_le.mp hn⟩
    · exact exec_traffic h fun c hc => hi ⟨c, hc⟩
  simpa only [dmaTraffic, Prod.mk.injEq] using htraffic

end Sys2Proof.Machine

/-! Proofs of the statements about budgets and runs: the closed forms of the divider and the timer (41_clock.md section
2), that a budget may be split (R102, R116), and that a run may be presented word by word (R81). -/

namespace Sys2Proof.Machine

/-! ## The closed forms (R117, R118) -/

/-- The trigger count on a budget `c` from a countdown `d`, as the closed forms write it. -/
theorem triggerCount_sub (i : Nat) (d c : Int) :
    triggerCount i (d - c) = if c < d then 0 else ((c - d) / i).toNat + 1 := by
  rw [triggerCount, neg_sub]
  by_cases h : c < d
  · rw [if_pos h, if_neg (by omega)]
  · rw [if_neg h, if_pos (by omega)]

/-- Settles O20: `k` is the trigger count of the divider's countdown. -/
theorem advanceDividerClosedForm : Obligations.AdvanceDividerClosedForm := by
  intro s c hd
  dsimp only
  obtain ⟨t, h⟩ := exec_advance_next c s
  obtain ⟨hcounter, hreg⟩ := exec_advance_divider h
  rw [dividerStep_eq] at hcounter hreg
  rw [← triggerCount_sub]
  refine ⟨t, h, hcounter, hreg, fun hle => ?_⟩
  rw [hcounter]
  exact countdown_end_bounds s.cfg.divInterval_pos le_rfl (by omega) hle

/-- As long as TIMA does not pass 0xFF, each tick adds 1 to it (R114). -/
theorem timerTick_iterate_register_of_lt (k : Nat) (s : State) (h : s.clock.timerRegister.toNat + k < 256) :
    (timerTick^[k] s).clock.timerRegister.toNat = s.clock.timerRegister.toNat + k := by
  induction k with
  | zero => rfl
  | succ k ih =>
    have hk := ih (by omega)
    have hne : (timerTick^[k] s).clock.timerRegister ≠ 0xFF := fun heq => by
      rw [heq, show (0xFF : Byte).toNat = 255 from rfl] at hk
      omega
    rw [Function.iterate_succ_apply', timerTick_register, if_neg hne]
    bv_omega

theorem timerTick_iterate_cfg (k : Nat) (s : State) : (timerTick^[k] s).cfg = s.cfg := by
  rw [timerTick_iterate_eq]; rfl

theorem timerTick_iterate_modulo (k : Nat) (s : State) :
    (timerTick^[k] s).clock.timerModulo = s.clock.timerModulo := by
  rw [timerTick_iterate_eq]; rfl

/-- The tick that takes TIMA past 0xFF, after all that do not, reloads the modulo and requests TIMER. -/
theorem timerTick_iterate_overflow (s : State) :
    (timerTick^[256 - s.clock.timerRegister.toNat] s).clock.timerRegister = s.clock.timerModulo ∧
      (timerTick^[256 - s.clock.timerRegister.toNat] s).requestFlags =
        s.requestFlags ||| flagMask s.cfg.toConfig .timer := by
  have hlt := s.clock.timerRegister.isLt
  obtain ⟨k, hk⟩ : ∃ k, 256 - s.clock.timerRegister.toNat = k + 1 := ⟨255 - s.clock.timerRegister.toNat, by omega⟩
  have hlast : (timerTick^[k] s).clock.timerRegister = 0xFF := by
    apply BitVec.eq_of_toNat_eq
    rw [timerTick_iterate_register_of_lt k s (by omega), show (0xFF : Byte).toNat = 255 from rfl]
    omega
  rw [hk, Function.iterate_succ_apply', timerTick_register, timerTick_flags, if_pos hlast, if_pos hlast,
    timerTick_iterate_modulo, timerTick_iterate_cfg, timerTick_iterate_flags_of_lt k s (by omega)]
  exact ⟨rfl, rfl⟩

/-- From the modulo on, TIMA runs through the values up to 0xFF again and again: its reload period (R118). -/
theorem timerTick_iterate_register_of_reloaded (k : Nat) {s : State}
    (h : s.clock.timerRegister = s.clock.timerModulo) :
    (timerTick^[k] s).clock.timerRegister.toNat =
      s.clock.timerModulo.toNat + k % (256 - s.clock.timerModulo.toNat) := by
  have hlt := s.clock.timerModulo.isLt
  induction k with
  | zero => rw [Nat.zero_mod, add_zero, ← h]; rfl
  | succ k ih =>
    have hmod := Nat.mod_lt k (show 256 - s.clock.timerModulo.toNat > 0 by omega)
    rw [Function.iterate_succ_apply', timerTick_register, timerTick_iterate_modulo, ← Nat.mod_add_mod]
    split_ifs with hlast
    · rw [hlast, show (0xFF : Byte).toNat = 255 from rfl] at ih
      rw [show k % (256 - s.clock.timerModulo.toNat) + 1 = 256 - s.clock.timerModulo.toNat by omega, Nat.mod_self,
        add_zero]
    · have hbelow : (timerTick^[k] s).clock.timerRegister.toNat ≠ 255 :=
        fun heq => hlast (BitVec.eq_of_toNat_eq heq)
      have hreg := (timerTick^[k] s).clock.timerRegister.isLt
      rw [Nat.mod_eq_of_lt (by omega), BitVec.toNat_add, ih, show (1 : Byte).toNat = 1 from rfl]
      omega

/-- Once TIMER is requested, further ticks leave the flags. -/
theorem timerTick_iterate_flags_of_requested (k : Nat) {s : State} {f : Flags}
    (h : s.requestFlags = f ||| flagMask s.cfg.toConfig .timer) :
    (timerTick^[k] s).requestFlags = s.requestFlags := by
  obtain hsame | hmore := timerTick_iterate_flags k s
  · exact hsame
  · rw [hmore, h, BitVec.or_assoc, BitVec.or_self]

/-- TIMA and the flags after enough ticks to overflow: the ticks after the first overflow only repeat the period. -/
theorem timerTick_iterate_past_overflow {k : Nat} {s : State} (h : 256 - s.clock.timerRegister.toNat ≤ k) :
    (timerTick^[k] s).clock.timerRegister.toNat =
        s.clock.timerModulo.toNat +
          (k - (256 - s.clock.timerRegister.toNat)) % (256 - s.clock.timerModulo.toNat) ∧
      (timerTick^[k] s).requestFlags = s.requestFlags ||| flagMask s.cfg.toConfig .timer := by
  obtain ⟨hreg, hflags⟩ := timerTick_iterate_overflow s
  generalize 256 - s.clock.timerRegister.toNat = n at h hreg hflags
  have hmodulo := timerTick_iterate_modulo n s
  have hcfg := timerTick_iterate_cfg n s
  rw [show k = k - n + n by omega, Function.iterate_add_apply, Nat.add_sub_cancel,
    timerTick_iterate_register_of_reloaded _ (hreg.trans hmodulo.symm), hmodulo,
    timerTick_iterate_flags_of_requested _ (hcfg ▸ hflags), hflags]
  exact ⟨rfl, rfl⟩

/-- Settles O21: `k` is the number of ticks, and TIMA and the flags are those after `k` ticks. -/
theorem advanceTimerClosedForm : Obligations.AdvanceTimerClosedForm := by
  intro s c hon hd
  dsimp only
  obtain ⟨t, h⟩ := exec_advance_next c s
  obtain ⟨hreg, hflags⟩ := exec_advance_enabled h hon
  have hcounter : t.clock.timerCounter = s.clock.timerCounter - c.toNat +
      timerTicks c.toNat s * s.cfg.timerInterval s.clock.timerSelect := by
    rw [exec_clock h]
    simp [clockAfter, clockAdvance_clock, hon]
  rw [← triggerCount_sub]
  refine ⟨t, h, hcounter, fun hlt => ?_, fun hle => ?_⟩
  · rw [hreg, hflags]
    exact ⟨timerTick_iterate_register_of_lt _ s (by rw [timerTicks]; omega),
      timerTick_iterate_flags_of_lt _ s (by rw [timerTicks]; omega)⟩
  · rw [hreg, hflags]
    exact timerTick_iterate_past_overflow hle

end Sys2Proof.Machine

namespace Sys2Proof.Machine

/-! ## The clock half reads the configuration, the clock and the flags alone -/

/-- States that agree in all that the clock half reads. -/
def ClockAgrees (s t : State) : Prop := t.cfg = s.cfg ∧ t.clock = s.clock ∧ t.requestFlags = s.requestFlags

theorem ClockAgrees.trans {s t u : State} (h : ClockAgrees s t) (h' : ClockAgrees t u) : ClockAgrees s u := by
  obtain ⟨hcfg, hclock, hflags⟩ := h
  obtain ⟨hcfg', hclock', hflags'⟩ := h'
  exact ⟨hcfg'.trans hcfg, hclock'.trans hclock, hflags'.trans hflags⟩

theorem ClockAgrees.timerTick {s t : State} (h : ClockAgrees s t) :
    ClockAgrees (timerTick s) (timerTick t) := by
  obtain ⟨hcfg, hclock, hflags⟩ := h
  rw [Machine.timerTick, Machine.timerTick, hclock]
  split_ifs
  · refine ⟨hcfg, rfl, ?_⟩
    simp only [request, State.setFlags_requestFlags, State.setClock_requestFlags, hcfg, hflags]
  · exact ⟨hcfg, rfl, hflags⟩

theorem ClockAgrees.timerTick_iterate (k : Nat) {s t : State} (h : ClockAgrees s t) :
    ClockAgrees (Machine.timerTick^[k] s) (Machine.timerTick^[k] t) := by
  induction k generalizing s t with
  | zero => exact h
  | succ k ih => exact ih h.timerTick

theorem ClockAgrees.dividerStep (c : Int) {s t : State} (h : ClockAgrees s t) :
    ClockAgrees (dividerStep c s) (dividerStep c t) := by
  obtain ⟨hcfg, hclock, hflags⟩ := h
  rw [dividerStep_eq, dividerStep_eq, hcfg, hclock]
  exact ⟨hcfg, rfl, hflags⟩

theorem ClockAgrees.clockAdvance {c : Int} (hc : 0 ≤ c) {s t : State} (h : ClockAgrees s t) :
    ClockAgrees (clockAdvance c s) (clockAdvance c t) := by
  obtain ⟨hcfg, hclock, hflags⟩ := h
  have hticks : timerTicks c t = timerTicks c s := by rw [timerTicks, timerTicks, hcfg, hclock]
  obtain ⟨-, hclock', hflags'⟩ :=
    (ClockAgrees.dividerStep c ⟨hcfg, hclock, hflags⟩).timerTick_iterate (timerTicks c s)
  refine ⟨by rw [clockAdvance_cfg hc, clockAdvance_cfg hc, hcfg], ?_, ?_⟩
  · rw [clockAdvance_clock hc, clockAdvance_clock hc, hticks, hclock', hcfg, hclock]
  · rw [clockAdvance_flags hc, clockAdvance_flags hc, hticks, hflags', hclock, hflags]

/-- Between states that agree, the clock half makes the same two updates. -/
theorem clockAdvance_of_agrees {c : Int} (hc : 0 ≤ c) {s t : State} (h : ClockAgrees s t) :
    clockAdvance c t = (t.setClock (clockAdvance c s).clock).setFlags (clockAdvance c s).requestFlags := by
  obtain ⟨-, hclock, hflags⟩ := h.clockAdvance hc
  rw [clockAdvance_frame hc t, hclock, hflags]

/-! ## The DMA loop beside updates of what it does not touch -/

/-- The DMA loop commutes with an update that keeps the DMA state and that neither a copy, nor a completion, nor a fault
sees. -/
theorem dmaLoop_commute {f : State → State} (hdma : ∀ s, (f s).dma = s.dma)
    (hcopy : ∀ s, dmaCopy (f s) = f (dmaCopy s)) (hcomplete : ∀ s, dmaComplete (f s) = f (dmaComplete s))
    (hraise : ∀ s r, (f s).raise r = f (s.raise r)) (n : Nat) (s : State) :
    dmaLoop n (f s) = f (dmaLoop n s) := by
  induction n generalizing s with
  | zero => rfl
  | succ n ih =>
    rw [dmaLoop, dmaLoop, hdma, hcopy, hdma, hcomplete, hraise, ih]
    split_ifs <;> rfl

theorem dmaLoop_setClock_setFlags (n : Nat) (s : State) (k : ClockState) (f : Flags) :
    dmaLoop n ((s.setClock k).setFlags f) = ((dmaLoop n s).setClock k).setFlags f :=
  dmaLoop_commute (f := fun s => (s.setClock k).setFlags f) (fun _ => rfl) (fun _ => rfl) (fun _ => rfl)
    (fun _ _ => rfl) n s

theorem dmaLoop_setCommands (n : Nat) (s : State) (ws : List Word) :
    dmaLoop n (s.setCommands ws) = (dmaLoop n s).setCommands ws :=
  dmaLoop_commute (f := fun s => s.setCommands ws) (fun _ => rfl) (fun _ => rfl) (fun _ => rfl)
    (fun _ _ => rfl) n s

/-! ## A run of words (R81, R215) -/

/-- The clock half neither reads nor writes the words to come. -/
theorem clockAdvance_setCommands {c : Int} (hc : 0 ≤ c) (s : State) (ws : List Word) :
    clockAdvance c (s.setCommands ws) = (clockAdvance c s).setCommands ws := by
  have hagrees : ClockAgrees s (s.setCommands ws) := ⟨rfl, rfl, rfl⟩
  rw [clockAdvance_of_agrees hc hagrees, clockAdvance_frame hc s]
  rfl

/-- No command depends on the words to come. -/
theorem exec_setCommands {i : Instr} {s t : State} (h : exec i s = .next t) (ws : List Word) :
    exec i (s.setCommands ws) = .next (t.setCommands ws) := by
  cases i with
  | advance c =>
    rw [exec_advance_eq] at h ⊢
    cases h
    rw [clockAdvance_setCommands (by omega), dmaLoop_setCommands, State.setCommands_dma]
    split_ifs <;> rfl
  | poll keys => rw [exec_poll] at h ⊢; cases h; rfl
  | _ => cases h; rfl

/-- A step on the first of some words does what it does on that word alone, and leaves the others to come. -/
theorem step_setCommands_cons {s t : State} {w : Word} (h : step (s.setCommands [w]) = .next t) (ws : List Word) :
    step (s.setCommands (w :: ws)) = .next (t.setCommands ws) := by
  have hfault : s.fault = none := (step_cases h).1
  cases hdec : decode s.cfg.toConfig w with
  | error e =>
    rw [step_of_refused_word (s := s.setCommands [w]) hfault rfl hdec] at h
    cases h
    exact step_of_refused_word (s := s.setCommands (w :: ws)) hfault rfl hdec
  | ok i =>
    rw [step_of_command (s := s.setCommands [w]) hfault rfl hdec] at h
    rw [step_of_command (s := s.setCommands (w :: ws)) hfault rfl hdec]
    exact exec_setCommands h ws

theorem runWords_cons_of_next {s t : State} {w : Word} (ws : List Word) (h : step (s.setCommands [w]) = .next t) :
    runWords (w :: ws) s = runWords ws t := by
  rw [runWords, h]

theorem runWords_cons_of_fault {s : State} {w : Word} {r : Fault} (ws : List Word)
    (h : step (s.setCommands [w]) = .fault r) : runWords (w :: ws) s = .fault r := by
  rw [runWords, h]

/-- The host's run of a list of words presents them one at a time: each step takes one word and does not depend on the
others. -/
theorem core_run_eq_runWords (ws : List Word) {s : State} (hnil : s.commands = []) :
    core.run ws.length (s.setCommands ws) = runWords ws s := by
  induction ws generalizing s with
  | nil => rw [← hnil, State.setCommands_self, hnil]; rfl
  | cons w ws ih =>
    cases hfault : s.fault with
    | some r =>
      exact (core_run_fault _ (step_of_fault (s := s.setCommands (w :: ws)) hfault)).trans
        (runWords_cons_of_fault ws (step_of_fault (s := s.setCommands [w]) hfault)).symm
    | none =>
      obtain ⟨t, ht⟩ := step_next_of_no_fault (s := s.setCommands [w]) hfault
      obtain ⟨-, hnil'⟩ := stepKeepsParameters _ _ ht
      exact (core_run_next _ (step_setCommands_cons ht ws)).trans
        ((ih hnil').trans (runWords_cons_of_next ws ht).symm)

/-- Settles O10: the state with the list in it is the one the host's run starts from. -/
theorem runOfAListIsItsWordsOneByOne : Obligations.RunOfAListIsItsWordsOneByOne :=
  fun ws _ => core_run_eq_runWords ws

/-! ## A budget spent in two parts (R102, R116) -/

section
variable {a b : Int}

/-- The divider's half of splitting. -/
theorem dividerStep_add (hb : 0 ≤ b) (s : State) : dividerStep (a + b) s = dividerStep b (dividerStep a s) := by
  have hcount := triggerCount_add s.cfg.divInterval_pos (s.clock.dividerCounter - a) hb
  simp only [dividerStep_eq, State.setClock_clock, State.setClock_cfg, State.setClock_setClock]
  rw [← sub_sub, hcount, BitVec.ofNat_add, ← BitVec.add_assoc]
  congr 2
  push_cast
  ring

end

/-- The timer's countdown replaced. -/
def setTimerCounter (d : Int) (s : State) : State := s.setClock { s.clock with timerCounter := d }

/-- A tick neither reads nor writes the countdown. -/
theorem timerTick_setTimerCounter_commute (d : Int) : Function.Commute timerTick (setTimerCounter d) := fun s => by
  rw [setTimerCounter, timerTick, timerTick, State.setClock_clock]
  split_ifs <;> rfl

theorem dividerStep_setTimerCounter (c d : Int) (s : State) :
    dividerStep c (setTimerCounter d s) = setTimerCounter d (dividerStep c s) := by
  rw [dividerStep_eq, dividerStep_eq]; rfl

/-- An enabled timer's step is its ticks and then the remainder. -/
theorem timerStep_enabled (c : Int) {s : State} (hon : s.clock.timerEnabled = true) :
    timerStep c s =
      setTimerCounter (s.clock.timerCounter - c + timerTicks c s * s.cfg.timerInterval s.clock.timerSelect)
        (timerTick^[timerTicks c s] s) := by
  rw [timerStep, if_pos hon, countdown_eq (s.cfg.timerInterval_pos _)]
  rfl

theorem timerStep_disabled (c : Int) {s : State} (hoff : ¬s.clock.timerEnabled = true) : timerStep c s = s :=
  if_neg hoff

/-- What the timer's step leaves of what its own ticks are counted from. -/
theorem timerStep_enabled_frame (c : Int) {s : State} (hon : s.clock.timerEnabled = true) :
    (timerStep c s).cfg = s.cfg ∧ (timerStep c s).clock.timerEnabled = true ∧
      (timerStep c s).clock.timerSelect = s.clock.timerSelect := by
  rw [timerStep_eq, if_pos hon]
  exact ⟨rfl, hon, rfl⟩

section
variable {a b : Int}

/-- The ticks of a budget spent in two parts are those of its parts. -/
theorem timerTicks_add (hb : 0 ≤ b) {s : State} (hon : s.clock.timerEnabled = true) :
    timerTicks (a + b) s = timerTicks b (timerStep a s) + timerTicks a s := by
  obtain ⟨hcfg, -, hselect⟩ := timerStep_enabled_frame a hon
  have hcounter : (timerStep a s).clock.timerCounter =
      s.clock.timerCounter - a + timerTicks a s * s.cfg.timerInterval s.clock.timerSelect := by
    rw [timerStep_enabled a hon]; rfl
  rw [timerTicks, ← sub_sub, triggerCount_add (s.cfg.timerInterval_pos _) _ hb, add_comm, timerTicks, hcounter, hcfg,
    hselect, timerTicks]

/-- The timer's half of splitting. -/
theorem timerStep_add (hb : 0 ≤ b) (s : State) : timerStep (a + b) s = timerStep b (timerStep a s) := by
  by_cases hon : s.clock.timerEnabled = true
  · obtain ⟨hcfg, hon', hselect⟩ := timerStep_enabled_frame a hon
    have hticks := timerTicks_add (a := a) hb hon
    rw [timerStep_enabled (a + b) hon, timerStep_enabled b hon', hcfg, hselect, hticks, Function.iterate_add_apply]
    generalize timerTicks b (timerStep a s) = k
    rw [timerStep_enabled a hon, (timerTick_setTimerCounter_commute _).iterate_left]
    simp only [setTimerCounter, State.setClock_clock, State.setClock_setClock]
    congr 2
    push_cast
    ring
  · rw [timerStep_disabled _ hon, timerStep_disabled _ hon, timerStep_disabled _ hon]

theorem dividerStep_timerStep (c d : Int) (s : State) :
    dividerStep c (timerStep d s) = timerStep d (dividerStep c s) := by
  have hclock : (dividerStep c s).clock.timerEnabled = s.clock.timerEnabled ∧
      (dividerStep c s).clock.timerCounter = s.clock.timerCounter ∧
      (dividerStep c s).clock.timerSelect = s.clock.timerSelect ∧ (dividerStep c s).cfg = s.cfg := by
    rw [dividerStep_eq]
    exact ⟨rfl, rfl, rfl, rfl⟩
  obtain ⟨henabled, hcounter, hselect, hcfg⟩ := hclock
  have hticks : timerTicks d (dividerStep c s) = timerTicks d s := by
    rw [timerTicks, timerTicks, hcounter, hselect, hcfg]
  by_cases hon : s.clock.timerEnabled = true
  · rw [timerStep_enabled d hon, timerStep_enabled d (henabled.trans hon), dividerStep_setTimerCounter, hticks,
      hcounter, hcfg, hselect, timerTick_iterate_dividerStep]
  · rw [timerStep_disabled d hon, timerStep_disabled d (henabled ▸ hon)]

/-- The clock half of splitting (R116). -/
theorem clockAdvance_add (ha : 0 ≤ a) (hb : 0 ≤ b) (s : State) :
    clockAdvance (a + b) s = clockAdvance b (clockAdvance a s) := by
  rw [clockAdvance_eq (by omega), clockAdvance_eq ha, clockAdvance_eq hb, dividerStep_timerStep, dividerStep_add hb,
    timerStep_add hb]

end

/-! ## The clock after a list of budgets (R116, R117) -/

/-- What ADVANCE leaves agrees with its clock half. -/
theorem exec_advance_agrees {c : Cycles} {s t : State} (h : exec (.advance c) s = .next t) :
    ClockAgrees (clockAdvance c.toNat s) t :=
  ⟨(exec_cfg h).trans (clockAdvance_cfg (by omega) s).symm, exec_clock h, exec_requestFlags h⟩

/-- One or more ADVANCE commands leave a state that agrees with the clock half of their total. -/
theorem perform_advances_agrees (c : Cycles) (parts : List Cycles) (s : State) :
    ∃ t, perform ((c :: parts).map .advance) s = .next t ∧
      ClockAgrees (clockAdvance (((c :: parts).map BitVec.toNat).sum : Nat) s) t := by
  induction parts generalizing c s with
  | nil =>
    obtain ⟨t, ht⟩ := exec_advance_next c s
    exact ⟨t, perform_cons_of_next [] ht, by simpa using exec_advance_agrees ht⟩
  | cons d parts ih =>
    obtain ⟨t, ht⟩ := exec_advance_next c s
    obtain ⟨u, hu, hagrees⟩ := ih d t
    refine ⟨u, (perform_cons_of_next _ ht).trans hu, ?_⟩
    rw [List.map_cons, List.sum_cons, Nat.cast_add, clockAdvance_add (by omega) (by omega)]
    exact ((exec_advance_agrees ht).clockAdvance (by omega)).trans hagrees

/-- Settles O24: both runs agree with the clock half of the total. -/
theorem clockIsInvariantUnderPartition : Obligations.ClockIsInvariantUnderPartition := by
  intro s parts total hne htotal
  obtain ⟨c, rest, rfl⟩ := List.exists_cons_of_ne_nil hne
  obtain ⟨t, ht, -, hclock, hflags⟩ := perform_advances_agrees c rest s
  obtain ⟨u, hu⟩ := exec_advance_next total s
  obtain ⟨-, hclock', hflags'⟩ := exec_advance_agrees hu
  rw [htotal] at hclock' hflags'
  exact ⟨t, u, ht, hu, hclock.trans hclock'.symm, hflags.trans hflags'.symm⟩

/-- From a countdown of a whole interval a budget triggers once per interval in it. -/
theorem triggerCount_interval_sub {i : Nat} (hi : 0 < i) (n : Nat) : triggerCount i (i - n) = n / i := by
  have hdiv : (n / i * i + n % i : Int) = n := by exact_mod_cast Nat.div_add_mod' n i
  have hmod : n % i < i := Nat.mod_lt n hi
  by_cases h : (i : Int) - n ≤ 0
  · exact triggerCount_unique hi h (by push_cast; omega) (by push_cast; omega)
  · rw [triggerCount_pos (by omega), Nat.div_eq_of_lt (by omega)]

/-- Settles O26: the divider after the total budget, from the countdown of one interval that reset holds. -/
theorem dividerKeepsLongRunRate : Obligations.DividerKeepsLongRunRate := by
  intro c parts
  cases parts with
  | nil => exact ⟨_, rfl, by simp [State.resetWith]⟩
  | cons d parts =>
    obtain ⟨t, ht, -, hclock, -⟩ := perform_advances_agrees d parts (State.resetWith c)
    refine ⟨t, ht, ?_⟩
    rw [hclock, clockAdvance_clock (by omega)]
    have hcount := triggerCount_interval_sub c.divInterval_pos ((d :: parts).map BitVec.toNat).sum
    simp only [State.resetWith, hcount]
    exact BitVec.zero_add _

/-! ## Two ADVANCE commands are one with the summed budget (R102) -/

/-- The DMA half of splitting: after the first part the loop goes on, unless it has completed the transfer. -/
theorem dmaLoop_add (n m : Nat) {s : State} (hb : s.dma.busy = true) (hcount : s.dma.count < dmaLength) :
    dmaLoop (n + m) s = if (dmaLoop n s).dma.busy then dmaLoop m (dmaLoop n s) else dmaLoop n s := by
  by_cases hn : n < dmaLength - s.dma.count
  · have hbusy : (dmaCopy^[n] s).dma.busy = true := by rw [dmaCopy_iterate_dma]; exact hb
    have hcount' : (dmaCopy^[n] s).dma.count = s.dma.count + n := by rw [dmaCopy_iterate_dma]
    rw [dmaLoop_eq n s hcount, if_pos hn, if_pos hbusy, dmaLoop_eq m _ (by omega), dmaLoop_eq _ s hcount, hcount']
    by_cases hm : n + m < dmaLength - s.dma.count
    · rw [if_pos hm, if_pos (by omega), Nat.add_comm, Function.iterate_add_apply]
    · rw [if_neg hm, if_neg (by omega), ← Function.iterate_add_apply]
      congr 3
      omega
  · rw [dmaLoop_eq n s hcount, if_neg hn, dmaLoop_eq _ s hcount, if_neg (by omega)]
    rfl

/-- The two halves of ADVANCE do not see each other. -/
theorem clockAdvance_dmaLoop {c : Int} (hc : 0 ≤ c) (n : Nat) (s : State) :
    clockAdvance c (dmaLoop n s) = dmaLoop n (clockAdvance c s) := by
  obtain ⟨hcfg, -, hclock, hflags, -⟩ := dmaLoop_frame n s
  rw [clockAdvance_of_agrees hc ⟨hcfg, hclock, hflags⟩, ← dmaLoop_setClock_setFlags, ← clockAdvance_frame hc]

/-- Settles O25: each half splits, and the second clock half may be moved before the first DMA half. -/
theorem advanceIsInvariantUnderSplitting : Obligations.AdvanceIsInvariantUnderSplitting := by
  intro s a b total htotal hproviso
  have hclock : clockAdvance total.toNat s = clockAdvance b.toNat (clockAdvance a.toNat s) := by
    rw [htotal, Nat.cast_add, clockAdvance_add (by omega) (by omega)]
  have hdma : (clockAdvance b.toNat (clockAdvance a.toNat s)).dma = s.dma := by
    rw [clockAdvance_dma (by omega), clockAdvance_dma (by omega)]
  refine ⟨_, _, exec_advance_eq a s, exec_advance_eq b _, ?_⟩
  rw [exec_advance_eq, hclock, htotal]
  by_cases hb : s.dma.busy = true
  · have hbusy : (dmaLoop a.toNat (clockAdvance a.toNat s)).dma =
        (dmaLoop a.toNat (clockAdvance b.toNat (clockAdvance a.toNat s))).dma := by
      rw [← clockAdvance_dmaLoop (c := b.toNat) (by omega), clockAdvance_dma (by omega)]
    simp only [if_pos hb, hbusy, clockAdvance_dmaLoop (Int.natCast_nonneg _)]
    rw [dmaLoop_add _ _ (hdma ▸ hb) (hdma ▸ hproviso hb)]
  · simp only [if_neg hb, clockAdvance_dma (Int.natCast_nonneg _)]

end Sys2Proof.Machine

/-! Proofs of the statements about what one ADVANCE leaves unchanged (40_advance.md) and about the bytes it copies
(42_dma.md section 4). -/

namespace Sys2Proof.Machine

/-! ## ADVANCE 0 (R101) -/

/-- The clock half on no budget is the identity while both countdowns are positive. -/
theorem clockAdvance_zero {s : State} (hdiv : 1 ≤ s.clock.dividerCounter) (htimer : 1 ≤ s.clock.timerCounter) :
    clockAdvance 0 s = s := by
  have hclock : (clockAdvance 0 s).clock = s.clock := by
    have htriggers : triggerCount s.cfg.divInterval (s.clock.dividerCounter - 0) = 0 := triggerCount_pos (by omega)
    have hticks : timerTicks 0 s = 0 := timerTicks_eq_zero (by omega)
    rw [clockAdvance_clock le_rfl, htriggers, hticks, Function.iterate_zero_apply, dividerStep_timerRegister]
    simp
  have hflags : (clockAdvance 0 s).requestFlags = s.requestFlags := by
    obtain hsame | ⟨-, hover, -⟩ := clockAdvance_flags_cases le_rfl s
    · exact hsame
    · have hreg := s.clock.timerRegister.isLt
      rw [timerTicks_eq_zero (by omega)] at hover
      omega
  rw [clockAdvance_frame le_rfl, hclock, hflags, State.setClock_self, State.setFlags_self]

/-- Settles O27: neither half does anything on no budget. -/
theorem advanceZeroChangesNothing : Obligations.AdvanceZeroChangesNothing := by
  rintro s ⟨⟨hdiv, -⟩, ⟨htimer, -⟩, -⟩
  have hclock : clockAdvance (0 : Cycles).toNat s = s := clockAdvance_zero hdiv htimer
  rw [exec_advance_eq, hclock]
  exact congrArg _ (ite_self s)

/-! ## What ADVANCE leaves unchanged -/

section
variable {c : Cycles} {s t : State} (h : exec (.advance c) s = .next t)
include h

/-- ADVANCE leaves the modulo, the enable and the select. -/
theorem exec_advance_clock_frame :
    t.clock.timerModulo = s.clock.timerModulo ∧ t.clock.timerEnabled = s.clock.timerEnabled ∧
      t.clock.timerSelect = s.clock.timerSelect := by
  rw [exec_clock h, clockAfter, clockAdvance_clock (by omega)]
  exact ⟨rfl, rfl, rfl⟩

/-- ADVANCE leaves every flag but TIMER. -/
theorem exec_advance_other_flags {k : Nat} (hk : k ≠ s.cfg.vecTimer) :
    t.requestFlags.getLsbD k = s.requestFlags.getLsbD k := by
  rw [exec_requestFlags h, flagsAfter]
  obtain hsame | ⟨-, -, hreq⟩ := clockAdvance_flags_cases (Int.natCast_nonneg c.toNat) s
  · rw [hsame]
  · have hmask : (flagMask s.cfg.toConfig .timer).getLsbD k = false := by
      by_cases hlt : k < 5
      · rw [getLsbD_flagMask hlt]
        exact decide_eq_false hk
      · exact BitVec.getLsbD_of_ge _ _ (by omega)
    rw [hreq, BitVec.getLsbD_or, hmask, Bool.or_false]

/-- Outside a transfer ADVANCE leaves the DMA state, OAM, the fault and the record. -/
theorem exec_advance_idle_frame (hb : s.dma.busy = false) :
    t.dma = s.dma ∧ t.oam = s.oam ∧ t.fault = s.fault ∧ t.record = s.record := by
  rw [exec_advance_idle c s hb] at h
  cases h
  rw [clockAdvance_frame (by omega)]
  exact ⟨rfl, rfl, rfl, rfl⟩

/-- ADVANCE leaves every OAM byte but those its transfer reaches. -/
theorem exec_advance_read_of_not_copied {off : Nat}
    (hoff : ¬(s.dma.busy = true ∧ s.dma.count ≤ off ∧ off < 160 ∧ off < s.dma.count + c.toNat)) :
    t.oam.read off = s.oam.read off := by
  by_cases hb : s.dma.busy = true
  · by_cases hlt : off < dmaLength
    · refine exec_advance_read_of_not_reached h ?_
      by_contra hreached
      obtain ⟨hlo, hhi⟩ := not_or.mp hreached
      exact hoff ⟨hb, not_lt.mp hlo, hlt, not_le.mp hhi⟩
    · rw [Memory.read, Memory.read, if_neg hlt, if_neg hlt]
  · obtain ⟨-, hoam, -⟩ := exec_advance_idle_frame h (Bool.eq_false_iff.mpr hb)
    rw [hoam]

end

/-- Settles O28: one lemma for each part of the state. -/
theorem advanceFrame : Obligations.AdvanceFrame := by
  intro s c
  obtain ⟨t, h⟩ := exec_advance_next c s
  obtain ⟨hcfg, hcommands⟩ := exec_parameters h
  obtain ⟨hmodulo, henabled, hselect⟩ := exec_advance_clock_frame h
  refine ⟨t, h, hcfg, hcommands, exec_input h, exec_refused h, exec_advance_busReads h, hmodulo, henabled, hselect,
    fun _ => exec_advance_other_flags h, exec_advance_idle_frame h, fun _ hn => ?_,
    fun _ => exec_advance_read_of_not_copied h⟩
  rw [exec_fault h, faultAfter_eq_of_not_raised fun ⟨_, _, hrange⟩ => by omega]

/-! ## The bytes a transfer copies (R141) -/

/-- The address of the `j`-th raw read that the transfer of a state will make. -/
def copyAddr (s : State) (j : Nat) : Addr := s.dma.source + BitVec.ofNat 16 (s.dma.count + j)

/-- The byte that the oracle answers to it (log entry 7). -/
def copiedByte (s : State) (j : Nat) : Byte := Config.rawByte (s.record.rawReads.length + j) (copyAddr s j)

theorem dmaReadAddr_dmaCopy_iterate (k : Nat) (s : State) : dmaReadAddr (dmaCopy^[k] s).dma = copyAddr s k := by
  rw [dmaCopy_iterate_dma]; rfl

/-- Each copy makes one raw read. -/
theorem dmaCopy_iterate_rawReads_length (k : Nat) (s : State) :
    (dmaCopy^[k] s).record.rawReads.length = s.record.rawReads.length + k := by
  induction k with
  | zero => rfl
  | succ k ih =>
    rw [Function.iterate_succ_apply', dmaCopy_eq, State.setRecord_record, List.length_append, ih]
    rfl

/-- The byte that the copy after `k` others writes. -/
theorem rawAnswer_dmaCopy_iterate (k : Nat) (s : State) :
    rawAnswer (dmaCopy^[k] s) (copyAddr s k) = copiedByte s k := by
  rw [rawAnswer, dmaCopy_iterate_rawReads_length, copiedByte]

/-- What a further copy does to OAM and to the record. -/
theorem dmaCopy_iterate_succ (k : Nat) (s : State) :
    (dmaCopy^[k + 1] s).oam = (dmaCopy^[k] s).oam.write (s.dma.count + k) (copiedByte s k) ∧
      (dmaCopy^[k + 1] s).record.rawReads =
        (dmaCopy^[k] s).record.rawReads ++ [((copyAddr s k).toNat, copiedByte s k)] ∧
      (dmaCopy^[k + 1] s).record.oamWrites =
        (dmaCopy^[k] s).record.oamWrites ++ [(s.dma.count + k, copiedByte s k)] := by
  have hcount : (dmaCopy^[k] s).dma.count = s.dma.count + k := by rw [dmaCopy_iterate_dma]
  rw [Function.iterate_succ_apply', dmaCopy_eq, dmaReadAddr_dmaCopy_iterate, rawAnswer_dmaCopy_iterate, hcount]
  exact ⟨rfl, rfl, rfl⟩

/-- What some copies leave in the record: the raw reads and the OAM writes in the order they were made. -/
theorem dmaCopy_iterate_record (k : Nat) (s : State) :
    (dmaCopy^[k] s).record.rawReads =
        s.record.rawReads ++ (List.range k).map (fun j => ((copyAddr s j).toNat, copiedByte s j)) ∧
      (dmaCopy^[k] s).record.oamWrites =
        s.record.oamWrites ++ (List.range k).map (fun j => (s.dma.count + j, copiedByte s j)) := by
  induction k with
  | zero => exact ⟨(List.append_nil _).symm, (List.append_nil _).symm⟩
  | succ k ih =>
    obtain ⟨hreads, hwrites⟩ := ih
    obtain ⟨-, hread, hwrite⟩ := dmaCopy_iterate_succ k s
    rw [hread, hwrite, hreads, hwrites, List.range_succ, List.map_append, List.map_append, List.append_assoc,
      List.append_assoc]
    exact ⟨rfl, rfl⟩

/-- What some copies leave in OAM at the offsets they write, as long as these are offsets of OAM. -/
theorem dmaCopy_iterate_read {k : Nat} {s : State} (hk : s.dma.count + k ≤ dmaLength) {j : Nat} (hj : j < k) :
    (dmaCopy^[k] s).oam.read (s.dma.count + j) = some (copiedByte s j) := by
  induction k with
  | zero => exact absurd hj (Nat.not_lt_zero j)
  | succ k ih =>
    obtain ⟨hoam, -, -⟩ := dmaCopy_iterate_succ k s
    rw [hoam]
    obtain rfl | hlt := Nat.eq_or_lt_of_le (Nat.le_of_lt_succ hj)
    · exact Memory.read_write_same _ (by omega) _
    · rw [Memory.read_write_other _ _ (by omega), ih (by omega) hlt]

/-- During a transfer ADVANCE leaves OAM and the record as the copies it has the budget for leave them. -/
theorem exec_advance_busy_copies {c : Cycles} {s t : State} (h : exec (.advance c) s = .next t)
    (hb : s.dma.busy = true) (hn : s.dma.count < dmaLength) :
    t.oam = (dmaCopy^[min c.toNat (dmaLength - s.dma.count)] (clockAdvance c.toNat s)).oam ∧
      t.record = (dmaCopy^[min c.toNat (dmaLength - s.dma.count)] (clockAdvance c.toNat s)).record := by
  rw [exec_advance_busy c s hb hn] at h
  cases h
  by_cases hc : c.toNat < dmaLength - s.dma.count
  · rw [if_pos hc, min_eq_left hc.le]
    exact ⟨rfl, rfl⟩
  · rw [if_neg hc, min_eq_right (not_lt.mp hc)]
    exact ⟨rfl, rfl⟩

/-- What ADVANCE copies during a transfer: the raw reads and the OAM writes it makes, in order, and the bytes that the
offsets written then hold. The clock half leaves the engine alone, so they are those of the state ADVANCE starts in. -/
theorem exec_advance_copies {c : Cycles} {s t : State} (h : exec (.advance c) s = .next t)
    (hb : s.dma.busy = true) (hn : s.dma.count < dmaLength) :
    t.record.rawReads = s.record.rawReads ++
        (List.range (min c.toNat (dmaLength - s.dma.count))).map (fun j => ((copyAddr s j).toNat, copiedByte s j)) ∧
      t.record.oamWrites = s.record.oamWrites ++
        (List.range (min c.toNat (dmaLength - s.dma.count))).map (fun j => (s.dma.count + j, copiedByte s j)) ∧
      ∀ j, j < min c.toNat (dmaLength - s.dma.count) → t.oam.read (s.dma.count + j) = some (copiedByte s j) := by
  obtain ⟨hoam, hrecord⟩ := exec_advance_busy_copies h hb hn
  have hdma := clockAdvance_dma (Int.natCast_nonneg c.toNat) s
  have hbefore := clockAdvance_record (Int.natCast_nonneg c.toNat) s
  have haddr : copyAddr (clockAdvance c.toNat s) = copyAddr s := by funext j; rw [copyAddr, copyAddr, hdma]
  have hbyte : copiedByte (clockAdvance c.toNat s) = copiedByte s := by
    funext j; rw [copiedByte, copiedByte, haddr, hbefore]
  obtain ⟨hreads, hwrites⟩ :=
    dmaCopy_iterate_record (min c.toNat (dmaLength - s.dma.count)) (clockAdvance c.toNat s)
  rw [haddr, hbyte, hbefore] at hreads
  rw [hdma, hbyte, hbefore] at hwrites
  refine ⟨hrecord ▸ hreads, hrecord ▸ hwrites, fun j hj => ?_⟩
  have hread := dmaCopy_iterate_read (s := clockAdvance c.toNat s) (by rw [hdma]; omega) hj
  rw [hdma, hbyte] at hread
  rw [hoam, hread]

/-- The DMA state an ADVANCE during a transfer leaves (R141, R142). -/
theorem exec_advance_busy_dma {c : Cycles} {s t : State} (h : exec (.advance c) s = .next t)
    (hb : s.dma.busy = true) (hn : s.dma.count < 160) :
    t.dma = if 160 - s.dma.count ≤ c.toNat then { source := 0x0000, count := 0, busy := false }
      else { source := s.dma.source, count := s.dma.count + c.toNat, busy := true } := by
  rw [exec_dma h, dmaAfter, if_pos ⟨hb, hn⟩, ← hb]
  exact if_congr (Nat.sub_le_iff_le_add').symm rfl rfl

/-- Settles O31: the DMA state, the copies, and the offsets that no copy reaches. -/
theorem advanceCopiesTheNextBytes : Obligations.AdvanceCopiesTheNextBytes := by
  intro s c hb hn
  obtain ⟨t, h⟩ := exec_advance_next c s
  obtain ⟨hreads, hwrites, hoam⟩ := exec_advance_copies h hb hn
  exact ⟨t, h, exec_advance_busy_dma h hb hn, hreads, hwrites, hoam,
    fun off hoff => exec_advance_read_of_not_copied h (by omega)⟩

/-- Settles O32: the copies of an ADVANCE that has the budget for all 160, from the state DMA_START leaves. -/
theorem fullTransferFillsOam : Obligations.FullTransferFillsOam := by
  intro s src
  obtain ⟨t, h, hperform⟩ := perform_then_advance (i := .dmaStart src) (s := s) rfl 160
  obtain ⟨hreads, -, hoam⟩ := exec_advance_copies h rfl (Nat.zero_lt_succ _)
  have haddr (j : Nat) : copyAddr (dmaStart src s) j = src + BitVec.ofNat 16 j := by
    rw [copyAddr, show (dmaStart src s).dma.count = 0 from rfl, Nat.zero_add]; rfl
  have hbyte (j : Nat) : copiedByte (dmaStart src s) j =
      Config.rawByte (s.record.rawReads.length + j) (src + BitVec.ofNat 16 j) := by
    rw [copiedByte, haddr]; rfl
  refine ⟨t, hperform, fun j hj => ?_, ?_, exec_advance_busy_dma h rfl (Nat.zero_lt_succ _)⟩
  · rw [← hbyte, ← hoam j hj]
    exact congrArg _ (Nat.zero_add j).symm
  · rw [hreads, List.map_append, List.map_map]
    refine congrArg _ (List.map_congr_left fun j _ => ?_)
    show (copyAddr (dmaStart src s) j).toNat = _
    rw [haddr, BitVec.toNat_add, BitVec.toNat_ofNat]
    omega

end Sys2Proof.Machine

/-! Proofs of the last statements about the flags (43_interrupts.md), the joypad (44_joypad.md), the bus reads and reset
(10_state.md section 8, 70_reset_and_hazards.md). -/

namespace Sys2Proof.Machine

/-- Settles O37: OR-ing in two masks is OR-ing in their union, and likewise for taking out. -/
theorem requestsAndClearsAccumulate : Obligations.RequestsAndClearsAccumulate := by
  intro s a b
  refine ⟨⟨_, rfl, ?_⟩, ⟨_, rfl, ?_⟩, ⟨_, rfl, rfl, fun k hk => ?_⟩⟩
  · show Host.Outcome.next (s.setFlags (s.requestFlags ||| (a ||| b))) = _
    rw [← BitVec.or_assoc]; rfl
  · show Host.Outcome.next (s.setFlags (s.requestFlags &&& ~~~(a ||| b))) = _
    rw [BitVec.not_or, ← BitVec.and_assoc]; rfl
  · show ((s.requestFlags ||| a) &&& ~~~b).getLsbD k = false
    simp [hk]

/-! ## The status bits of JOYP (R182) -/

/-- A bus-level bit of a group is 0 exactly when the group is selected and its key pressed. -/
theorem getLsbD_groupNibble_eq_false_iff {k : Nat} (hk : k < 4) (line : Bool) (keys : BitVec 4) :
    (groupNibble line keys).getLsbD k = false ↔ line = false ∧ keys.getLsbD k = true := by
  cases line with
  | false => simp [groupNibble, hk]
  | true =>
    have hones : (0b1111#4).getLsbD k = true := by interval_cases k <;> rfl
    simp [groupNibble, hones]

/-- A status bit is 0 exactly when the bit of one of the groups is: the nibbles are ANDed. -/
theorem getLsbD_joypNibble_eq_false_iff {k : Nat} (hk : k < 4) (i : InputState) :
    (joypNibble i).getLsbD k = false ↔
      (i.select.getLsbD 0 = false ∧ i.current.getLsbD (k + 4) = true) ∨
        (i.select.getLsbD 1 = false ∧ i.current.getLsbD k = true) := by
  rw [joypNibble, BitVec.getLsbD_and, Bool.and_eq_false_iff, getLsbD_groupNibble_eq_false_iff hk,
    getLsbD_groupNibble_eq_false_iff hk, BitVec.getLsbD_extractLsb', BitVec.getLsbD_extractLsb']
  simp only [hk, decide_true, Bool.true_and, Nat.zero_add, Nat.add_comm 4 k]

/-- Settles O41: the low bits of the byte RD_JOYP yields are the status nibble. -/
theorem joypBitIsZeroIffASelectedKeyIsPressed : Obligations.JoypBitIsZeroIffASelectedKeyIsPressed := by
  refine fun s => ⟨_, joypValue s, rfl, rfl, fun k hk => ?_⟩
  have hlow : (joypValue s).getLsbD k = (joypNibble s.input).getLsbD k := by
    rw [joypValue, BitVec.getLsbD_append, if_pos hk]
  rw [hlow, getLsbD_joypNibble_eq_false_iff hk]

/-! ## Bus reads and reset -/

/-- Settles O50: the byte each of the six reads yields is the same in both states. -/
theorem busReadsHideInternalState : Obligations.BusReadsHideInternalState := by
  refine fun s dc tc prev d => ⟨fun i hi => ?_, _, _, _, _, rfl, rfl, rfl, rfl⟩
  simp only [List.mem_cons, List.not_mem_nil, or_false] at hi
  obtain rfl | rfl | rfl | rfl | rfl | rfl := hi <;> exact ⟨_, _, rfl, rfl, rfl⟩

/-- Settles O51: the reset state and the six reads from it, evaluated. -/
theorem resetStateHoldsTheTableValues : Obligations.ResetStateHoldsTheTableValues :=
  ⟨fun _ => ⟨rfl, rfl, rfl, rfl, rfl, rfl⟩, _, rfl, rfl⟩

/-- Settles O52: both countdowns start at an interval of the configuration, and every OAM has exactly 160 bytes. -/
theorem resetStateIsWellFormed : Obligations.ResetStateIsWellFormed := by
  intro c
  have hdiv := c.divInterval_pos
  have htimer := c.timerInterval_pos 0
  have hmax := c.timerInterval_le_max 0
  refine ⟨⟨⟨⟨?_, le_rfl⟩, ⟨?_, ?_⟩, Nat.zero_le _, fun _ => ⟨rfl, rfl⟩, rfl, rfl⟩, rfl⟩, rfl, fun off => ?_⟩
  · exact Int.ofNat_le.mpr hdiv
  · exact Int.ofNat_le.mpr htimer
  · exact Int.ofNat_le.mpr hmax
  · rw [← Option.isSome_iff_exists]
    exact Memory.read_isSome_iff _ off

end Sys2Proof.Machine
